-- ==== Sys2Proof/Word.lean ====
section
/-! DEFINITION. The word types of the block. Every width is a rule of the spec; all values are unsigned (R11). -/

set_option autoImplicit false

namespace Sys2Proof

/-- One byte of a stream, of the password buffer or of a `CRCUPD` operand (R52, R30). -/
abbrev Byte := BitVec 8

/-- A command word `cmd[63:0]` (R70). -/
abbrev CmdWord := BitVec 64

/-- A value operand, and the data of a response (R70, R75). -/
abbrev Data := BitVec 32

/-- The 11-bit operand fields `A` and `B` (R70). -/
abbrev Pos := BitVec 11

/-- The 6-bit count field `N` (R70). -/
abbrev Count := BitVec 6

/-- The 2-bit grade code field `G` (R70, R76). -/
abbrev GradeCode := BitVec 2

/-- A 6-bit group of the stream, or a symbol of the password (R54, R14). -/
abbrev Group := BitVec 6

/-- A 9-bit item identifier (R7). -/
abbrev ItemId := BitVec 9

end Sys2Proof
end

