-- ==== Sys2Proof/Syntax.lean ====
section
/-! DEFINITION. The commands: one constructor per row of spec/opcode_table.json (R78), with the operand fields its
format leaves free (R71). -/

set_option autoImplicit false

namespace Sys2Proof

/-- The 29 commands of R78. Every operand is an unsigned field of the word (R72). -/
inductive Instr where
  /-- `NOP`, R210. -/
  | nop
  /-- `CLR`, R211. -/
  | clr
  /-- `RDCR sel`, R212. -/
  | rdcr (sel : Pos)
  /-- `BACLR`, R103. -/
  | baclr
  /-- `PUSHB v`, R104. -/
  | pushb (v : Data)
  /-- `PUSHN n, v`, R105. -/
  | pushn (n : Count) (v : Data)
  /-- `REPL n, pos, v`, R106. -/
  | repl (n : Count) (pos : Pos) (v : Data)
  /-- `SUBB lo, hi`, R107. -/
  | subb (lo hi : Pos)
  /-- `SSWR sel, v`, R141. -/
  | sswr (sel : Pos) (v : Data)
  /-- `SSRD sel`, R142. -/
  | ssrd (sel : Pos)
  /-- `PACK g`, R143. -/
  | pack (g : GradeCode)
  /-- `UNPACK g`, R144. -/
  | unpack (g : GradeCode)
  /-- `CRCINIT`, R155. -/
  | crcinit
  /-- `CRCUPD b`, R156. -/
  | crcupd (b : Byte)
  /-- `CRCFIN`, R157. -/
  | crcfin
  /-- `KEYGEN nbytes`, R158. -/
  | keygen (nbytes : Pos)
  /-- `ENCR`, R159. -/
  | encr
  /-- `DECR`, R160. -/
  | decr
  /-- `REGRP`, R177. -/
  | regrp
  /-- `UNGRP`, R178. -/
  | ungrp
  /-- `SCRAM`, R179. -/
  | scram
  /-- `UNSCR`, R180. -/
  | unscr
  /-- `PWWR idx, b`, R181. -/
  | pwwr (idx : Pos) (b : Byte)
  /-- `PWRD idx`, R182. -/
  | pwrd (idx : Pos)
  /-- `PWLEN n`, R183. -/
  | pwlen (n : Pos)
  /-- `PWCHK`, R184. -/
  | pwchk
  /-- `ENCODE g`, R192. -/
  | encode (g : GradeCode)
  /-- `DECODE`, R194. -/
  | decode
  /-- `CONVERT t`, R198. -/
  | convert (t : GradeCode)
deriving DecidableEq, Repr

end Sys2Proof
end

