-- ==== Sys2Proof/WellFormed.lean ====
section
/-! DEFINITION. Well-formed commands (R80). Every field of a command decodes at every value (R79), so well-formedness
is not about the encoding: it is the list of R80, the operand values that a command's own rule refuses in every state.
A command that is not well-formed still decodes, still runs, and answers with the failure its rule names. -/

set_option autoImplicit false

namespace Sys2Proof

/-- The reserved SaveState selectors of R27. The gap 0x030 to 0x03F holds no register; R27 does not list it, vector
G17 of spec/95_test_vectors.md calls it reserved (DEDUCED, log 9). -/
def ssSelectorReserved (sel : Pos) : Bool :=
  let a := sel.toNat
  a == 0x00F
    || (0x010 ≤ a && a < 0x030 && 6 ≤ a % 8)
    || (0x030 ≤ a && a < 0x040)
    || (0x040 ≤ a && a < 0x080 && a % 16 == 15)
    || 0x080 ≤ a

/-- The reserved control-register selectors of R24. -/
def crSelectorReserved (sel : Pos) : Bool := 0x006 < sel.toNat

/-- R80: the grade code is not 0. -/
def gradeOk (g : GradeCode) : Bool := g != 0

/-- R80: the count is at most 32. -/
def countOk (n : Count) : Bool := n.toNat ≤ 32

/-- R80: the index is below 260. -/
def indexOk (i : Pos) : Bool := i.toNat < 260

/-- R80: the length is at most 511. -/
def lengthOk (n : Pos) : Bool := n.toNat ≤ 511

/-- The operand checks of R80, command by command. -/
def Instr.wf : Instr → Bool
  | .nop | .clr | .baclr | .crcinit | .crcfin | .encr | .decr => true
  | .regrp | .ungrp | .scram | .unscr | .pwchk | .decode => true
  | .pushb _ | .crcupd _ | .keygen _ | .subb _ _ => true
  | .rdcr sel => !crSelectorReserved sel
  | .pushn n _ => countOk n
  | .repl n _ _ => countOk n
  | .sswr sel _ => !ssSelectorReserved sel
  | .ssrd sel => !ssSelectorReserved sel
  | .pack g | .unpack g | .encode g | .convert g => gradeOk g
  | .pwwr i _ => indexOk i
  | .pwrd i => indexOk i
  | .pwlen n => lengthOk n

end Sys2Proof
end

