-- ==== Sys2Proof/Decode.lean ====
section
/-! DEFINITION. The decoder and the encoder of command words (R70 to R83). -/

set_option autoImplicit false

namespace Sys2Proof

/-! ### The fields of R70 -/

/-- `OP = cmd[63:56]`. -/
def fieldOp (w : CmdWord) : BitVec 8 := w.extractLsb' 56 8

/-- `N = cmd[55:50]`. -/
def fieldN (w : CmdWord) : Count := w.extractLsb' 50 6

/-- `G = cmd[49:48]`. -/
def fieldG (w : CmdWord) : GradeCode := w.extractLsb' 48 2

/-- `A = cmd[42:32]`. -/
def fieldA (w : CmdWord) : Pos := w.extractLsb' 32 11

/-- `V = cmd[31:0]`. -/
def fieldV (w : CmdWord) : Data := w.extractLsb' 0 32

/-- `V[7:0]`. -/
def fieldV8 (w : CmdWord) : Byte := w.extractLsb' 0 8

/-- `B = V[10:0]`. -/
def fieldB (w : CmdWord) : Pos := w.extractLsb' 0 11

/-- The ten formats of R71. -/
inductive Format where
  | z | g | a | v | v8 | av | av8 | nv | nav | ab
deriving DecidableEq, Repr

/-- The mask of a format, R71: 1 marks a bit that must equal the match value. -/
def Format.mask : Format → CmdWord
  | .z => 0xFFFFFFFFFFFFFFFF
  | .g => 0xFFFCFFFFFFFFFFFF
  | .a => 0xFFFFF800FFFFFFFF
  | .v => 0xFFFFFFFF00000000
  | .v8 => 0xFFFFFFFFFFFFFF00
  | .av => 0xFFFFF80000000000
  | .av8 => 0xFFFFF800FFFFFF00
  | .nv => 0xFF03FFFF00000000
  | .nav => 0xFF03F80000000000
  | .ab => 0xFFFFF800FFFFF800

/-- One row of the table R78: opcode, format, and the command built from the operand fields of a word. -/
structure OpRow where
  op : BitVec 8
  format : Format
  build : CmdWord → Instr

/-- The match value of a row: "`OP << 56` with all other bits 0" (R71). -/
def OpRow.matchValue (r : OpRow) : CmdWord := r.op.setWidth 64 <<< 56

/-- Does a word match a row under the row's mask (R79)? -/
def OpRow.accepts (r : OpRow) (w : CmdWord) : Bool := w &&& r.format.mask == r.matchValue

/-- The system commands of R78. -/
def systemRows : List OpRow :=
  [⟨0x00, .z, fun _ => .nop⟩,
   ⟨0x01, .z, fun _ => .clr⟩,
   ⟨0x02, .a, fun w => .rdcr (fieldA w)⟩]

/-- The bit accumulator commands of R78. -/
def bpuRows : List OpRow :=
  [⟨0x10, .z, fun _ => .baclr⟩,
   ⟨0x11, .v, fun w => .pushb (fieldV w)⟩,
   ⟨0x12, .nv, fun w => .pushn (fieldN w) (fieldV w)⟩,
   ⟨0x13, .nav, fun w => .repl (fieldN w) (fieldA w) (fieldV w)⟩,
   ⟨0x14, .ab, fun w => .subb (fieldA w) (fieldB w)⟩]

/-- The SaveState and schema commands of R78. -/
def schemaRows : List OpRow :=
  [⟨0x20, .av, fun w => .sswr (fieldA w) (fieldV w)⟩,
   ⟨0x21, .a, fun w => .ssrd (fieldA w)⟩,
   ⟨0x22, .g, fun w => .pack (fieldG w)⟩,
   ⟨0x23, .g, fun w => .unpack (fieldG w)⟩]

/-- The checksum cipher commands of R78. -/
def cipherRows : List OpRow :=
  [⟨0x30, .z, fun _ => .crcinit⟩,
   ⟨0x31, .v8, fun w => .crcupd (fieldV8 w)⟩,
   ⟨0x32, .z, fun _ => .crcfin⟩,
   ⟨0x33, .a, fun w => .keygen (fieldA w)⟩,
   ⟨0x34, .z, fun _ => .encr⟩,
   ⟨0x35, .z, fun _ => .decr⟩]

/-- The regrouper and password buffer commands of R78. -/
def regrouperRows : List OpRow :=
  [⟨0x40, .z, fun _ => .regrp⟩,
   ⟨0x41, .z, fun _ => .ungrp⟩,
   ⟨0x42, .z, fun _ => .scram⟩,
   ⟨0x43, .z, fun _ => .unscr⟩,
   ⟨0x44, .av8, fun w => .pwwr (fieldA w) (fieldV8 w)⟩,
   ⟨0x45, .a, fun w => .pwrd (fieldA w)⟩,
   ⟨0x46, .a, fun w => .pwlen (fieldA w)⟩,
   ⟨0x47, .z, fun _ => .pwchk⟩]

/-- The pipeline commands of R78. -/
def pipelineRows : List OpRow :=
  [⟨0x50, .g, fun w => .encode (fieldG w)⟩,
   ⟨0x51, .z, fun _ => .decode⟩,
   ⟨0x52, .g, fun w => .convert (fieldG w)⟩]

/-- The complete command set, 29 rows (R78). -/
def opcodeTable : List OpRow :=
  systemRows ++ bpuRows ++ schemaRows ++ cipherRows ++ regrouperRows ++ pipelineRows

/-- Why a word is illegal (R79). The block answers both with `ERR_ILLEGAL`. -/
inductive Illegal where
  /-- "its `OP` is none of the 29 listed". -/
  | unassignedOpcode (op : BitVec 8)
  /-- "a bit that its format leaves unused is 1". -/
  | unusedBitSet (op : BitVec 8)
deriving DecidableEq, Repr

/-- The decoder (R79): total, every word is either exactly one command of R78 or illegal. -/
def decode (w : CmdWord) : Except Illegal Instr :=
  match opcodeTable.find? (fun r => r.op == fieldOp w) with
  | none => .error (.unassignedOpcode (fieldOp w))
  | some r => if r.accepts w then .ok (r.build w) else .error (.unusedBitSet r.op)

/-! ### The encoder -/

/-- A word put together from its fields: `(OP << 56) | (N << 50) | (G << 48) | (A << 32) | V`, the reserved field
`Z1` being 0 (R83, R70). -/
def assemble (op : BitVec 8) (n : Count) (g : GradeCode) (a : Pos) (v : Data) : CmdWord :=
  op.setWidth 64 <<< 56 ||| n.setWidth 64 <<< 50 ||| g.setWidth 64 <<< 48 ||| a.setWidth 64 <<< 32 ||| v.setWidth 64

/-- The word of a command, every field its format does not use being 0 and `B` placed in `V[10:0]` (R83, R78). -/
def encode : Instr → CmdWord
  | .nop => assemble 0x00 0 0 0 0
  | .clr => assemble 0x01 0 0 0 0
  | .rdcr sel => assemble 0x02 0 0 sel 0
  | .baclr => assemble 0x10 0 0 0 0
  | .pushb v => assemble 0x11 0 0 0 v
  | .pushn n v => assemble 0x12 n 0 0 v
  | .repl n pos v => assemble 0x13 n 0 pos v
  | .subb lo hi => assemble 0x14 0 0 lo (hi.setWidth 32)
  | .sswr sel v => assemble 0x20 0 0 sel v
  | .ssrd sel => assemble 0x21 0 0 sel 0
  | .pack g => assemble 0x22 0 g 0 0
  | .unpack g => assemble 0x23 0 g 0 0
  | .crcinit => assemble 0x30 0 0 0 0
  | .crcupd b => assemble 0x31 0 0 0 (b.setWidth 32)
  | .crcfin => assemble 0x32 0 0 0 0
  | .keygen nbytes => assemble 0x33 0 0 nbytes 0
  | .encr => assemble 0x34 0 0 0 0
  | .decr => assemble 0x35 0 0 0 0
  | .regrp => assemble 0x40 0 0 0 0
  | .ungrp => assemble 0x41 0 0 0 0
  | .scram => assemble 0x42 0 0 0 0
  | .unscr => assemble 0x43 0 0 0 0
  | .pwwr idx b => assemble 0x44 0 0 idx (b.setWidth 32)
  | .pwrd idx => assemble 0x45 0 0 idx 0
  | .pwlen n => assemble 0x46 0 0 n 0
  | .pwchk => assemble 0x47 0 0 0 0
  | .encode g => assemble 0x50 0 g 0 0
  | .decode => assemble 0x51 0 0 0 0
  | .convert t => assemble 0x52 0 t 0 0

/-! ### The host's view of the decoder -/

/-- The command word that a table row's bits give: bits at and above `nbits` are 0. The command port takes the whole
64-bit word at once, so there is no byte order to lay out (R70, R251; log 11). -/
def tableWord (nbits w : Nat) : CmdWord := BitVec.ofNat 64 (w % 2 ^ nbits)

/-- The command the decoder reads from the bits `w` of a table row; a value of more than 64 bits is no command word. -/
def decodeTableWord (nbits w : Nat) : Option Instr :=
  if w % 2 ^ nbits < 2 ^ 64 then (decode (tableWord nbits w)).toOption else none

end Sys2Proof
end

