-- ==== Sys2Proof/Config.lean ====
section
/-! DEFINITION. The implementation parameters: the constants of R7 and R8, and the open parameters of R9 as plain data
with their constraints. -/

set_option autoImplicit false

namespace Sys2Proof

/-- "one of three password sizes/detail levels (Gold > Silver > Bronze)" (R13, R120). -/
inductive Grade where
  | bronze
  | silver
  | gold
deriving DecidableEq, Repr

/-- The grade codes of R76; their numeric order is the document's order (R13). -/
def Grade.code : Grade → GradeCode
  | .bronze => 1
  | .silver => 2
  | .gold => 3

/-- `P(g)` of R7: the payload size in bytes, "a declared constant (not recomputed)". -/
def Grade.payloadBytes : Grade → Nat
  | .bronze => 9
  | .silver => 39
  | .gold => 173

/-- `LEN(g)` of R7: the password length in symbols. -/
def Grade.passwordLength : Grade → Nat
  | .bronze => 16
  | .silver => 61
  | .gold => 260

/-- `BA_CAP` of R8, the capacity of the bit memory in bits. -/
def baCap : Nat := 2048

/-- `PW_CAP` of R8, the number of entries of the password buffer. -/
def pwCap : Nat := 260

/-- `CRC_INIT` of R7. -/
def crcInit : BitVec 16 := 0xFFFF

/-- `CRC_ADD` of R7. -/
def crcAdd : Nat := 0xFFFFEFDF

/-- `LINE` of R7: data groups per line checksum group. -/
def lineLength : Nat := 9

/-- `SYNC_EVERY` of R7: item identifiers between frame-sync bits. -/
def syncEvery : Nat := 7

/-- `EVENT_SLOTS` of R8. -/
def eventSlots : Nat := 8

/-- One item slot as the block stores it: an id and the raw 5-bit quantity (R28). -/
structure Item where
  id : ItemId
  qty : BitVec 5
deriving DecidableEq, Repr, Inhabited

/-- The six stats of one character, with the widths of R27, in the document's order. -/
structure Stats where
  /-- `f = 0`, HP. -/
  hp : BitVec 11
  /-- `f = 1`, resource points. -/
  rp : BitVec 11
  /-- `f = 2`. -/
  attack : BitVec 10
  /-- `f = 3`. -/
  defense : BitVec 10
  /-- `f = 4`. -/
  agility : BitVec 10
  /-- `f = 5`. -/
  luck : BitVec 8
deriving DecidableEq, Repr, Inhabited

/-- The item table: 4 characters by 15 slots (R27). -/
abbrev ItemTable := Vector (Vector Item 15) 4

/-- The open parameters of R9. The spec gives them no value: every claim holds for all of them, or under
`Params.Valid` and the two conditions below it where a rule needs the constraint. -/
structure Params where
  /-- `WATCH[0..7]`. -/
  watch : Vector ItemId 8
  /-- `STACK[0..22]`. -/
  stack : Vector ItemId 23
  /-- `DEF_STATS[Bronze][c][f]`. -/
  defStats : Vector Stats 4
  /-- `DEF_ITEMS[Bronze][c][s]`. -/
  defItemsBronze : ItemTable
  /-- `DEF_ITEMS[Silver][c][s]`. -/
  defItemsSilver : ItemTable
  /-- `DEF_COINS[Bronze]`. -/
  defCoinsBronze : BitVec 24
  /-- `DEF_COINS[Silver]`. -/
  defCoinsSilver : BitVec 24
  /-- `WATCH_CHAR`. -/
  watchChar : Fin 4
deriving DecidableEq, Repr, Inhabited

/-- The constraints R9 puts on `WATCH` and `STACK`: "pairwise distinct, none equal to 0". -/
abbrev Params.Valid (c : Params) : Prop :=
  c.watch.toList.Nodup ∧ (0 : ItemId) ∉ c.watch.toList ∧ c.stack.toList.Nodup ∧ (0 : ItemId) ∉ c.stack.toList

/-- What R9 asks of a placeholder item table: it "should contain no `WATCH` id and leave at least 8 slots with id 0 for
character `WATCH_CHAR`" (needed for R203). -/
abbrev Params.RoomFor (c : Params) (table : ItemTable) : Prop :=
  (∀ w ∈ c.watch.toList, ∀ row ∈ table.toList, ∀ item ∈ row.toList, item.id ≠ w) ∧
    8 ≤ (table[c.watchChar].toList.countP fun item => item.id == 0)

/-- The configuration of the instance that `State.reset` describes: an opaque constant WITHOUT A BODY, since the spec
gives these parameters no value (R9, D27; log 3). -/
opaque Config.params : Params

end Sys2Proof
end

