-- ==== Sys2Proof/Machine/State.lean ====
section
/-! DEFINITION. The state of the block (R21), its response (R75), its input, and the state after reset (R33). -/

set_option autoImplicit false

namespace Sys2Proof.Machine

/-- The SaveState register file `SS` (R27). Index `c` is the character, `e` the element, `k` the event, `s` the slot. -/
structure SaveState where
  /-- `SS.LEVEL[c]`. -/
  level : Vector (BitVec 7) 4
  /-- `SS.COMP[e]`. -/
  comp : Vector (BitVec 7) 4
  /-- `SS.EVENT[k]`, one bit each. -/
  event : Vector Bool 6
  /-- `SS.COINS`. -/
  coins : BitVec 24
  /-- `SS.STAT[c][f]`. -/
  stat : Vector Stats 4
  /-- `SS.ITEM[c][s]`. -/
  item : ItemTable
deriving DecidableEq, Repr, Inhabited

/-- Every SaveState register at its reset value 0 (R27, R33). -/
def SaveState.zero : SaveState where
  level := Vector.replicate 4 0
  comp := Vector.replicate 4 0
  event := Vector.replicate 6 false
  coins := 0
  stat := Vector.replicate 4 ⟨0, 0, 0, 0, 0, 0⟩
  item := Vector.replicate 4 (Vector.replicate 15 ⟨0, 0⟩)

/-- The password buffer `PW` (R30) as a list of (index, byte) cells in canonical form: indices strictly rising and no
cell equal to what an unlisted index reads as (`Memory.wf`). -/
abbrev Memory := List Host.Cell

/-- What an unlisted entry of the password buffer reads as: its reset content 0 (R30, R33). -/
def unlistedByte : Byte := 0

/-- The canonical form of the password buffer: indices strictly rising, all below `PW_CAP`, no listed 0. -/
def Memory.wf : Memory → Bool
  | [] => true
  | c :: m => (c.2 != unlistedByte && c.1 < pwCap && m.all fun d => c.1 < d.1) && Memory.wf m

/-- The status codes of R221, by name. -/
inductive Status where
  /-- 0x00: the command did what its rule says. -/
  | ok
  /-- 0x01 `ERR_LENGTH` (R222): `PWCHK`, `DECODE`, `CONVERT`. -/
  | length
  /-- 0x02 `ERR_SYMBOL` (R223): `PWCHK`, `DECODE`, `CONVERT`, `UNGRP`, `SCRAM`, `UNSCR`. -/
  | symbol
  /-- 0x03 `ERR_GRADE` (R224): `CONVERT`. -/
  | grade
  /-- 0x10 `ERR_ILLEGAL` (R225): an illegal word, grade code 0, a reserved selector. -/
  | illegal
  /-- 0x11 `ERR_RANGE` (R225). -/
  | range
  /-- 0x12 `ERR_CAP` (R225). -/
  | cap
  /-- 0x13 `ERR_WIDTH` (R225): `SSWR`. -/
  | width
  /-- 0x14 `ERR_ALIGN` (R225): `ENCR`. -/
  | align
deriving DecidableEq, Repr

/-- The response to a command: the pair `(status, data)` of R75. -/
structure Response where
  status : Status
  data : Data
deriving DecidableEq, Repr

/-- One thing the host can do to the block at its port (R20, R251). -/
inductive HostEvent where
  /-- The host presents a command word (`cmd_valid`, `cmd[63:0]`). -/
  | command (w : CmdWord)
  /-- The host asserts the reset signal (`rst`, R250). -/
  | reset
deriving DecidableEq, Repr

/-- The state of one instance: the tuple (`CR`, `SS`, `BA`, `PW`) of R21, and the model's own three fields `cfg`, `host`
and `rsp` (log 1, log 3, log 8). `CR.BALEN` is the length of `ba` (R26, R29; log 4); `CR.BACAP` and `CR.PWCAP` are
hardwired (R24) and have no storage. -/
structure State where
  /-- The configuration of the instance (R31): no step writes it. -/
  cfg : Params
  /-- `CR.CRC`, the cipher's working register (R24, R25). -/
  crc : BitVec 16
  /-- `CR.KEY`: bits 15:8 are keyHi, bits 7:0 keyLo (R24). -/
  key : BitVec 16
  /-- `CR.PWLEN`, the declared or produced password length (R24, R30). -/
  pwlen : BitVec 9
  /-- `CR.GRADE`, the grade code of the last successful pipeline command, 0 for none (R24). -/
  grade : GradeCode
  /-- The SaveState register file (R27). -/
  ss : SaveState
  /-- The stream: the valid bits `BA[0], …, BA[CR.BALEN - 1]` of the bit memory (R29, R100). -/
  ba : List Bool
  /-- The password buffer (R30). -/
  pw : Memory
  /-- What the host will do, in its order (R62); the head is what stands at the port now, the empty list an idle port. -/
  host : List HostEvent
  /-- The response given in the last step; none after reset and after an idle step (R251). -/
  rsp : Option Response
deriving DecidableEq, Repr

/-- The reasons a step can stop with a fault: there are NONE. Every failure the spec describes is a response (R220), and
"every command word, legal or not, has exactly one response and one next state" (93_implementation_defined.md; log 10). -/
inductive Fault
deriving DecidableEq, Repr

/-- The reasons a step can be refused. -/
inductive Refusal where
  /-- Raised by `exec` alone, for a command that has no meaning yet. No arm of this model raises it. Safe. -/
  | notModelled (mnemonic : String)
deriving DecidableEq, Repr

/-- The outcome of one step of the block. -/
abbrev Result := Host.Outcome State Fault Refusal

/-- The machine right after reset (R33, R250): every value is the rule's. Nothing is presented and no response stands. -/
def State.reset : State where
  cfg := Config.params
  crc := crcInit
  key := 0x0000
  pwlen := 0
  grade := 0
  ss := SaveState.zero
  ba := []
  pw := []
  host := []
  rsp := none

end Sys2Proof.Machine
end

