-- ==== Sys2Proof/Machine/Ops.lean ====
section
/-! DEFINITION. The named operations over the state: the bit memory, the password buffer, the response, and FAILING,
which is what this block has in the place of an exception (R220, R230). -/

set_option autoImplicit false

namespace Sys2Proof.Machine

/-! ### Updates of one field -/

/-- Replace the whole stream, and with it `CR.BALEN` (R29). -/
def State.setBa (s : State) (ba : List Bool) : State := { s with ba := ba }

/-- Write `CR.CRC`. -/
def State.setCrc (s : State) (r : BitVec 16) : State := { s with crc := r }

/-- Write `CR.KEY`. -/
def State.setKey (s : State) (k : BitVec 16) : State := { s with key := k }

/-- Write `CR.PWLEN`. -/
def State.setPwlen (s : State) (n : BitVec 9) : State := { s with pwlen := n }

/-- Write `CR.GRADE`. -/
def State.setGrade (s : State) (g : GradeCode) : State := { s with grade := g }

/-- Write the whole SaveState register file. -/
def State.setSs (s : State) (ss : SaveState) : State := { s with ss := ss }

/-- Replace the password buffer. -/
def State.setPw (s : State) (pw : Memory) : State := { s with pw := pw }

/-- Set what the host will do next. -/
def State.setHost (s : State) (h : List HostEvent) : State := { s with host := h }

/-- Set the response of the step. -/
def State.setRsp (s : State) (r : Option Response) : State := { s with rsp := r }

/-! ### Ending a command -/

/-- `return v`: the command ends with status `OK` and data `v` (R12). -/
def State.succeed (s : State) (v : Data) : Result := .next (s.setRsp (some ⟨.ok, v⟩))

/-- `fail <ERR>`: the command ends with that status and data 0 and writes no state at all (R12, R226). It is the ONE
operation by which a command is refused; nothing is saved, no mode changes, and no return from it exists (R230, R231). -/
def State.fail (s : State) (e : Status) : Result := .next (s.setRsp (some ⟨e, 0⟩))

/-- A state is put back to its reset values (R33); the configuration and what the host does next are no state of the block. -/
def State.toReset (s : State) : State := { State.reset with cfg := s.cfg, host := s.host }

/-! ### Bits, most significant first (R51) -/

/-- The `n` low bits of `v`, most significant first (R51). -/
def bitsOf : (n v : Nat) → List Bool
  | 0, _ => []
  | n + 1, v => v.testBit n :: bitsOf n v

/-- The bits of a register, most significant first. -/
def bitsOfReg {w : Nat} (v : BitVec w) : List Bool := bitsOf w v.toNat

/-- The unsigned integer of a bit sequence, its first bit the most significant (R51). -/
def valueOf (bits : List Bool) : Nat := bits.foldl (fun acc b => 2 * acc + b.toNat) 0

/-- `bit(i)`: the cell at position `i`, and 0 at or beyond the current length (R101). -/
def bitAt (ba : List Bool) (i : Nat) : Bool := ba.getD i false

/-- The first `n` bits of a list, with 0 for those it does not have. -/
def takeBits : Nat → List Bool → List Bool
  | 0, _ => []
  | n + 1, [] => false :: takeBits n []
  | n + 1, b :: bs => b :: takeBits n bs

/-- The bits `bit(addr), …, bit(addr + n - 1)`, read past the end as zero (R101, R254). -/
def readBits (ba : List Bool) (addr n : Nat) : List Bool := takeBits n (ba.drop addr)

/-- `MemRead(addr, n)` (R12, R102). -/
def memRead (ba : List Bool) (addr n : Nat) : Nat := valueOf (readBits ba addr n)

/-- `MemRead` of `w` bits as a register value. -/
def memReadReg (ba : List Bool) (addr w : Nat) : BitVec w := BitVec.ofNat w (memRead ba addr w)

/-- `SubBits(lo, hi)` (R102); the empty range is 0 (D9). -/
def subBits (ba : List Bool) (lo hi : Nat) : Nat := if lo ≤ hi then memRead ba lo (hi - lo + 1) else 0

/-- Overwrite cells from a position on; no cell at or beyond the current length is written (R12). -/
def overwrite : List Bool → Nat → List Bool → List Bool
  | [], _, _ => []
  | b :: bs, 0, [] => b :: bs
  | _ :: bs, 0, v :: vs => v :: overwrite bs 0 vs
  | b :: bs, p + 1, vs => b :: overwrite bs p vs

/-- `MemWrite(addr, n, v)` (R12). -/
def memWrite (ba : List Bool) (addr n v : Nat) : List Bool := overwrite ba addr (bitsOf n v)

/-- `NB`, the number of whole bytes of the stream (R52). -/
def wholeBytes (ba : List Bool) : Nat := ba.length / 8

/-- `Byte(i) = MemRead(8i, 8)` (R52). -/
def byteAt (ba : List Bool) (i : Nat) : Byte := memReadReg ba (8 * i) 8

/-- `Byte(0), …, Byte(m - 1)`. -/
def bytesOf (ba : List Bool) (m : Nat) : List Byte := (List.range m).map (byteAt ba)

/-- `ND`, the number of groups of the stream (R54). -/
def groupCount (ba : List Bool) : Nat := (ba.length + 5) / 6

/-- `Group(j) = MemRead(6j, 6)`; the last group reads cells beyond the end as 0 (R54). -/
def groupAt (ba : List Bool) (j : Nat) : Group := memReadReg ba (6 * j) 6

/-- `Group(0), …, Group(ND - 1)`. -/
def groupsOf (ba : List Bool) : List Group := (List.range (groupCount ba)).map (groupAt ba)

/-! ### The password buffer (R30) -/

/-- Entry `i` of the password buffer. -/
def Memory.read : Memory → Nat → Byte
  | [], _ => unlistedByte
  | c :: m, i => if c.1 = i then c.2 else Memory.read m i

/-- Put a cell at the head of a canonical list, or leave it out when it equals the unlisted value. -/
def Memory.cons (i : Nat) (b : Byte) (m : Memory) : Memory := if b = unlistedByte then m else (i, b) :: m

/-- `PW[i] <- b`, keeping the canonical form. -/
def Memory.write : Memory → Nat → Byte → Memory
  | [], i, b => Memory.cons i b []
  | c :: m, i, b =>
    if i < c.1 then Memory.cons i b (c :: m)
    else if i = c.1 then Memory.cons i b m
    else c :: Memory.write m i b

/-- `PW[i] <- bs[0]; PW[i + 1] <- bs[1]; …` -/
def Memory.writeFrom : Memory → Nat → List Byte → Memory
  | m, _, [] => m
  | m, i, b :: bs => Memory.writeFrom (Memory.write m i b) (i + 1) bs

/-- Entries 0 to `n - 1` of the password buffer. -/
def Memory.entries (m : Memory) (n : Nat) : List Byte := (List.range n).map m.read

/-- The low 6 bits `PW[i][5:0]` of an entry, as a group (R178). -/
def groupOfByte (b : Byte) : Group := b.setWidth 6

/-- `zext_8` of a group (R177). -/
def byteOfGroup (g : Group) : Byte := g.setWidth 8

/-- `PW[0][5:0], …, PW[n-1][5:0]`. -/
def Memory.groups (m : Memory) (n : Nat) : List Group := (m.entries n).map groupOfByte

/-- `for i: PW[i] <- zext_8(gs[i])`. -/
def Memory.writeGroups (m : Memory) (gs : List Group) : Memory := m.writeFrom 0 (gs.map byteOfGroup)

/-! ### Views of the state -/

/-- `CR.BALEN` (R24, R26). -/
def State.balen (s : State) : Nat := s.ba.length

/-- `CR.PWLEN` as a number of symbols. -/
def State.symbolCount (s : State) : Nat := s.pwlen.toNat

/-- keyHi, `KEY[15:8]` (R24). -/
def keyHi (k : BitVec 16) : Byte := k.extractLsb' 8 8

/-- keyLo, `KEY[7:0]` (R24). -/
def keyLo (k : BitVec 16) : Byte := k.extractLsb' 0 8

/-- A number as response data, `zext_32` (R12). -/
def dataOf (n : Nat) : Data := BitVec.ofNat 32 n

end Sys2Proof.Machine
end

