-- ==== Sys2Proof/Machine/Operands.lean ====
section
/-! DEFINITION. The operand forms that name something: grade codes (R76), control-register selectors (R24) and SaveState
selectors (R27), with the reads and writes they stand for. -/

set_option autoImplicit false

namespace Sys2Proof.Machine

/-! ### Grade codes -/

/-- The grade a code names; code 0 names none (R76). -/
def gradeOfCode (g : GradeCode) : Option Grade :=
  if g = 1 then some .bronze else if g = 2 then some .silver else if g = 3 then some .gold else none

/-- `GradeOfLength(n)`; no other length has a grade (R185). -/
def gradeOfLength (n : Nat) : Option Grade :=
  if n = 16 then some .bronze else if n = 61 then some .silver else if n = 260 then some .gold else none

/-! ### Control registers -/

/-- The control registers of R24. -/
inductive CtrlReg where
  | balen | crc | key | pwlen | grade | bacap | pwcap
deriving DecidableEq, Repr

/-- The control register a selector names; selectors above 0x006 are reserved (R24). -/
def ctrlRegOf (sel : Pos) : Option CtrlReg :=
  [CtrlReg.balen, .crc, .key, .pwlen, .grade, .bacap, .pwcap][sel.toNat]?

/-- A read of a control register, zero-extended to 32 bits; the last two are hardwired constants (R24). -/
def State.readCtrl (s : State) : CtrlReg → Data
  | .balen => dataOf s.balen
  | .crc => s.crc.setWidth 32
  | .key => s.key.setWidth 32
  | .pwlen => s.pwlen.setWidth 32
  | .grade => s.grade.setWidth 32
  | .bacap => dataOf baCap
  | .pwcap => dataOf pwCap

/-! ### SaveState registers -/

/-- The stats of R27, `f = 0 … 5`. -/
inductive StatField where
  | hp | rp | attack | defense | agility | luck
deriving DecidableEq, Repr

/-- The stat of index `f`; indices 6 and 7 name none (R27). -/
def statFieldOf (f : Nat) : Option StatField :=
  [StatField.hp, .rp, .attack, .defense, .agility, .luck][f]?

/-- The width of a stat: 11, 11, 10, 10, 10, 8 (R27). -/
def StatField.width : StatField → Nat
  | .hp | .rp => 11
  | .attack | .defense | .agility => 10
  | .luck => 8

/-- The SaveState registers of R27. -/
inductive SaveReg where
  | level (c : Fin 4)
  | comp (e : Fin 4)
  | event (k : Fin 6)
  | coins
  | stat (c : Fin 4) (f : StatField)
  | item (c : Fin 4) (s : Fin 15)
deriving DecidableEq, Repr

/-- The SaveState register a selector names, or none for a reserved selector (R27). -/
def saveRegOf (sel : Pos) : Option SaveReg :=
  let a := sel.toNat
  if h : a < 0x004 then some (.level ⟨a, h⟩)
  else if h : a < 0x008 then some (.comp ⟨a - 0x004, by omega⟩)
  else if h : a < 0x00E then some (.event ⟨a - 0x008, by omega⟩)
  else if a = 0x00E then some .coins
  else if h : 0x010 ≤ a ∧ a < 0x030 then
    (statFieldOf (a % 8)).map fun f => .stat ⟨(a - 0x010) / 8, by omega⟩ f
  else if h : 0x040 ≤ a ∧ a < 0x080 ∧ a % 16 ≠ 15 then
    some (.item ⟨(a - 0x040) / 16, by omega⟩ ⟨a % 16, by omega⟩)
  else none

/-- A read of a stat, zero-extended. -/
def readStat (t : Stats) : StatField → Data
  | .hp => t.hp.setWidth 32
  | .rp => t.rp.setWidth 32
  | .attack => t.attack.setWidth 32
  | .defense => t.defense.setWidth 32
  | .agility => t.agility.setWidth 32
  | .luck => t.luck.setWidth 32

/-- A write of the low bits of `v` to a stat; the width check is `SaveReg.accepts`. -/
def writeStat (t : Stats) (v : Data) : StatField → Stats
  | .hp => { t with hp := v.setWidth 11 }
  | .rp => { t with rp := v.setWidth 11 }
  | .attack => { t with attack := v.setWidth 10 }
  | .defense => { t with defense := v.setWidth 10 }
  | .agility => { t with agility := v.setWidth 10 }
  | .luck => { t with luck := v.setWidth 8 }

/-- The raw-save form of an item on the command port, `(qty << 11) | id` with bits 10:9 equal to 0 (R28). -/
def dataOfItem (i : Item) : Data := (i.qty ++ 0#2 ++ i.id).setWidth 32

/-- The item a raw-save value stands for: `id = w[8:0]`, `qty = w[15:11]` (R28). -/
def itemOfData (v : Data) : Item := ⟨v.extractLsb' 0 9, v.extractLsb' 11 5⟩

/-- Does a value fit the register it is written to (R141)? For an item, `V[31:16]` and `V[10:9]` must be 0. -/
def SaveReg.accepts (v : Data) : SaveReg → Bool
  | .level _ | .comp _ => v.toNat < 2 ^ 7
  | .event _ => v.toNat < 2 ^ 1
  | .coins => v.toNat < 2 ^ 24
  | .stat _ f => v.toNat < 2 ^ f.width
  | .item _ _ => v.extractLsb' 16 16 == 0 && v.extractLsb' 9 2 == 0

/-- A read of a SaveState register, zero-extended to 32 bits (R142). -/
def SaveState.read (ss : SaveState) : SaveReg → Data
  | .level c => ss.level[c].setWidth 32
  | .comp e => ss.comp[e].setWidth 32
  | .event k => dataOf ss.event[k].toNat
  | .coins => ss.coins.setWidth 32
  | .stat c f => readStat ss.stat[c] f
  | .item c s => dataOfItem ss.item[c][s]

/-- A write of a SaveState register with a value it accepts (R141). -/
def SaveState.write (ss : SaveState) (v : Data) : SaveReg → SaveState
  | .level c => { ss with level := ss.level.set c (v.setWidth 7) }
  | .comp e => { ss with comp := ss.comp.set e (v.setWidth 7) }
  | .event k => { ss with event := ss.event.set k (v.getLsbD 0) }
  | .coins => { ss with coins := v.setWidth 24 }
  | .stat c f => { ss with stat := ss.stat.set c (writeStat ss.stat[c] v f) }
  | .item c s => { ss with item := ss.item.set c (ss.item[c].set s (itemOfData v)) }

end Sys2Proof.Machine
end

