-- ==== Sys2Proof/Machine/Flags.lean ====
section
/-! DEFINITION. The block stores no flag and no condition code (R23). What stands in their place is the status of the
response: the codes of R221, and the checks that several commands share, in the order of R227. -/

set_option autoImplicit false

namespace Sys2Proof.Machine

/-- The 8-bit code of a status (R221). -/
def Status.code : Status → BitVec 8
  | .ok => 0x00
  | .length => 0x01
  | .symbol => 0x02
  | .grade => 0x03
  | .illegal => 0x10
  | .range => 0x11
  | .cap => 0x12
  | .width => 0x13
  | .align => 0x14

/-- `rsp_status[7:0]` and `rsp_data[31:0]` of a response (R251, R75). -/
def Response.signals (r : Response) : BitVec 8 × Data := (r.status.code, r.data)

/-- Is a byte in the symbol domain 0x00 to 0x3F (R7, R223)? -/
def inDomain (b : Byte) : Bool := b.toNat ≤ 0x3F

/-- Are all entries below `CR.PWLEN` in the domain (R223)? "Only entries below `CR.PWLEN` are checked." -/
def State.symbolsOk (s : State) : Bool := (s.pw.entries s.symbolCount).all inDomain

/-- The two checks of `UNGRP`, `SCRAM` and `UNSCR`: a length beyond the buffer, then the domain (R178, D33). -/
def State.bufferError (s : State) : Option Status :=
  if s.symbolCount > pwCap then some .range
  else if !s.symbolsOk then some .symbol
  else none

/-- The two input checks of the Decoder: the length, then the domain (R195); the grade when both pass. -/
def State.passwordGrade (s : State) : Except Status Grade :=
  match gradeOfLength s.symbolCount with
  | none => .error .length
  | some g => if s.symbolsOk then .ok g else .error .symbol

end Sys2Proof.Machine
end

