-- ==== Sys2Proof/Machine/Bpu.lean ====
section
/-! DEFINITION. The meanings of the bit accumulator commands (40_bit_accumulator.md). -/

set_option autoImplicit false

namespace Sys2Proof.Machine

/-- Append bits, all or none: refused when they do not fit `BA_CAP` (R104, R105, D7). -/
def State.append (s : State) (bits : List Bool) : Result :=
  if s.balen + bits.length > baCap then s.fail .cap
  else (s.setBa (s.ba ++ bits)).succeed 0

/-- `BACLR` (R103). -/
def execBaclr (s : State) : Result := (s.setBa []).succeed 0

/-- `PUSHB v` (R104): append the low bit. -/
def execPushb (v : Data) (s : State) : Result := s.append (bitsOf 1 v.toNat)

/-- `PUSHN n, v` (R105): append the `n` low bits; the count is checked first. -/
def execPushn (n : Count) (v : Data) (s : State) : Result :=
  if n.toNat > 32 then s.fail .range
  else s.append (bitsOf n.toNat v.toNat)

/-- `REPL n, pos, v` (R106): overwrite inside the current length. -/
def execRepl (n : Count) (pos : Pos) (v : Data) (s : State) : Result :=
  if n.toNat > 32 then s.fail .range
  else if pos.toNat ≥ s.balen then s.fail .range
  else if pos.toNat + n.toNat > s.balen then s.fail .range
  else (s.setBa (memWrite s.ba pos.toNat n.toNat v.toNat)).succeed 0

/-- `SUBB lo, hi` (R107): refused only when the range is wider than the response data. -/
def execSubb (lo hi : Pos) (s : State) : Result :=
  if hi.toNat ≥ lo.toNat ∧ hi.toNat - lo.toNat + 1 > 32 then s.fail .range
  else s.succeed (dataOf (subBits s.ba lo.toNat hi.toNat))

end Sys2Proof.Machine
end

