-- ==== Sys2Proof/Machine/Cipher.lean ====
section
/-! DEFINITION. The functions of the checksum cipher (R150): `CrcByte`, `KeyOf`, `Encrypt`, `Decrypt`. -/

set_option autoImplicit false

namespace Sys2Proof.Machine

/-- One round of `CrcByte` (R152): shift left by 1, add the constant WITH CARRIES when the bit shifted out was set, then
mask to 16 bits. The intermediate values are natural numbers. -/
def crcRound (r : BitVec 16) : BitVec 16 :=
  let shifted := r.toNat <<< 1
  BitVec.ofNat 16 (if r.getLsbD 15 then shifted + crcAdd else shifted)

/-- `n` rounds. -/
def crcRounds : Nat → BitVec 16 → BitVec 16
  | 0, r => r
  | n + 1, r => crcRounds n (crcRound r)

/-- `CrcByte(reg, b)` (R152). -/
def crcByte (r : BitVec 16) (b : Byte) : BitVec 16 := crcRounds 8 (r ^^^ (b.setWidth 16 <<< 8))

/-- The register after the bytes `bs`, in order. -/
def crcBytes (r : BitVec 16) (bs : List Byte) : BitVec 16 := bs.foldl crcByte r

/-- The complement that turns the register into the key (R151). -/
def keyOfCrc (r : BitVec 16) : BitVec 16 := ~~~r

/-- `KeyOf(b(0), …, b(m-1))` (R151). -/
def keyOf (bs : List Byte) : BitVec 16 := keyOfCrc (crcBytes crcInit bs)

/-- Exclusive-or each of the first `m` whole bytes of a stream with `lo`: position `p` lies in byte `p / 8` and holds its
bit `7 - p mod 8` (R52), so `Byte(i)` becomes `Byte(i) ^ lo` for `i < m` and every other cell stays. -/
def xorBytes (lo : Byte) (m : Nat) (ba : List Bool) : List Bool :=
  ba.zipIdx.map fun bp => if bp.2 < 8 * m then bp.1 != lo.getLsbD (7 - bp.2 % 8) else bp.1

/-- `Encrypt(stream, key)` of a stream of whole bytes (R153, C1): every byte is exclusive-ored with keyLo, the appended
keyHi byte too, but NOT the last byte, which is keyLo itself. -/
def encrypt (ba : List Bool) (k : BitVec 16) : List Bool :=
  xorBytes (keyLo k) (wholeBytes ba) ba ++ bitsOfReg (keyHi k ^^^ keyLo k) ++ bitsOfReg (keyLo k)

/-- The last whole byte of a stream, keyLo of a framed one (R154). -/
def lastByte (ba : List Bool) : Byte := byteAt ba (wholeBytes ba - 1)

/-- `Decrypt(stream)` of a stream with at least two whole bytes (R154): every whole byte but the last is exclusive-ored
with the last; the trailing bits stay. -/
def decrypt (ba : List Bool) : List Bool := xorBytes (lastByte ba) (wholeBytes ba - 1) ba

/-- The recovered pair `key'` of `Decrypt(stream)`, read after the exclusive or (R154, R160). -/
def recoveredKey (ba : List Bool) : BitVec 16 := byteAt (decrypt ba) (wholeBytes ba - 2) ++ lastByte ba

end Sys2Proof.Machine
end

