-- ==== Sys2Proof/Machine/Ccc.lean ====
section
/-! DEFINITION. The meanings of the checksum cipher commands (42_checksum_cipher.md, section 2). -/

set_option autoImplicit false

namespace Sys2Proof.Machine

/-- `CRCINIT` (R155). -/
def execCrcinit (s : State) : Result := (s.setCrc crcInit).succeed (crcInit.setWidth 32)

/-- `CRCUPD b` (R156): returns the new register. -/
def execCrcupd (b : Byte) (s : State) : Result :=
  let r := crcByte s.crc b
  (s.setCrc r).succeed (r.setWidth 32)

/-- `CRCFIN` (R157): `CR.CRC` is unchanged. -/
def execCrcfin (s : State) : Result :=
  let k := keyOfCrc s.crc
  (s.setKey k).succeed (k.setWidth 32)

/-- `CR.CRC` and `CR.KEY` hold the register and the key of the first `m` bytes of the accumulator (R158). -/
def State.keyed (s : State) (m : Nat) : State :=
  let r := crcBytes crcInit (bytesOf s.ba m)
  (s.setCrc r).setKey (keyOfCrc r)

/-- `KEYGEN nbytes` (R158). -/
def execKeygen (nbytes : Pos) (s : State) : Result :=
  if 8 * nbytes.toNat > s.balen then s.fail .range
  else
    let t := s.keyed nbytes.toNat
    t.succeed (t.key.setWidth 32)

/-- The accumulator is `Encrypt(accumulator, CR.KEY)` (R159). -/
def State.encrypted (s : State) : State := s.setBa (encrypt s.ba s.key)

/-- `ENCR` (R159): whole bytes first, then the capacity; returns the new `CR.BALEN`. -/
def execEncr (s : State) : Result :=
  if s.balen % 8 ≠ 0 then s.fail .align
  else if s.balen + 16 > baCap then s.fail .cap
  else
    let t := s.encrypted
    t.succeed (dataOf t.balen)

/-- The accumulator is `Decrypt(accumulator)` and `CR.KEY` its recovered pair (R160). -/
def State.decrypted (s : State) : State := (s.setBa (decrypt s.ba)).setKey (recoveredKey s.ba)

/-- `DECR` (R160). -/
def execDecr (s : State) : Result :=
  if wholeBytes s.ba < 2 then s.fail .range
  else
    let t := s.decrypted
    t.succeed (t.key.setWidth 32)

end Sys2Proof.Machine
end

