-- ==== Sys2Proof/Machine/Regroup.lean ====
section
/-! DEFINITION. The functions of the regrouper (R170): `Regroup`, `Ungroup`, `Scramble`, `Unscramble`. -/

set_option autoImplicit false

namespace Sys2Proof.Machine

/-- Insert the line checksum groups (R171): `sum` is the running sum modulo 64 of the `cnt` data groups of the line so
far; after the ninth the sum is put out and both start again. A partial last line gets no checksum group. -/
def insertChecks (sum : Group) (cnt : Nat) : List Group → List Group
  | [] => []
  | d :: ds =>
    if cnt + 1 = lineLength then d :: (sum + d) :: insertChecks 0 0 ds
    else d :: insertChecks (sum + d) (cnt + 1) ds

/-- `Regroup(stream)` (R171). -/
def regroup (ba : List Bool) : List Group := insertChecks 0 0 (groupsOf ba)

/-- The groups at the indices `i` with `i mod 10 ≠ 9`: every 10th group is removed without a look at it (R173). -/
def dropChecks (gs : List Group) : List Group :=
  (gs.zipIdx.filter fun gi => gi.2 % (lineLength + 1) != lineLength).map Prod.fst

/-- `Ungroup(g(0), …, g(n-1))` (R173). -/
def ungroup (gs : List Group) : List Bool := (dropChecks gs).flatMap bitsOfReg

/-- `Scramble`: `s(i) = (g(i) + i) mod 64` (R175). -/
def scramble (gs : List Group) : List Group := gs.zipIdx.map fun gi => gi.1 + BitVec.ofNat 6 gi.2

/-- `Unscramble`: `g(i) = (s(i) - i) mod 64` (R176). -/
def unscramble (gs : List Group) : List Group := gs.zipIdx.map fun gi => gi.1 - BitVec.ofNat 6 gi.2

end Sys2Proof.Machine
end

