-- ==== Sys2Proof/Machine/Rgl.lean ====
section
/-! DEFINITION. The meanings of the regrouper and password buffer commands (43_regrouper.md, sections 2 and 3). -/

set_option autoImplicit false

namespace Sys2Proof.Machine

/-- A command on the declared symbols: the two checks of D33, then the effect; returns `v` of the new state. -/
def State.onSymbols (s : State) (effect : State → State) (v : State → Data) : Result :=
  match s.bufferError with
  | some e => s.fail e
  | none => (effect s).succeed (v (effect s))

/-- The first `CR.PWLEN` entries, as groups (R178). -/
def State.groups (s : State) : List Group := s.pw.groups s.symbolCount

/-- The password buffer holds the groups of the accumulator from index 0 on (R177). -/
def State.regrouped (s : State) : State :=
  let out := regroup s.ba
  (s.setPw (s.pw.writeGroups out)).setPwlen (BitVec.ofNat 9 out.length)

/-- `REGRP` (R177). -/
def execRegrp (s : State) : Result :=
  if (regroup s.ba).length > pwCap then s.fail .cap
  else s.regrouped.succeed (dataOf (regroup s.ba).length)

/-- The accumulator is rebuilt from the symbols (R178). -/
def State.ungrouped (s : State) : State := s.setBa (ungroup s.groups)

/-- `UNGRP` (R178): returns the number of bits. -/
def execUngrp (s : State) : Result := s.onSymbols State.ungrouped fun t => dataOf t.balen

/-- The positional scramble in place (R179). -/
def State.scrambled (s : State) : State := s.setPw (s.pw.writeGroups (scramble s.groups))

/-- `SCRAM` (R179). -/
def execScram (s : State) : Result := s.onSymbols State.scrambled fun t => dataOf t.symbolCount

/-- The positional scramble undone in place (R180). -/
def State.unscrambled (s : State) : State := s.setPw (s.pw.writeGroups (unscramble s.groups))

/-- `UNSCR` (R180). -/
def execUnscr (s : State) : Result := s.onSymbols State.unscrambled fun t => dataOf t.symbolCount

/-- `PWWR idx, b` (R181): any byte is accepted. -/
def execPwwr (idx : Pos) (b : Byte) (s : State) : Result :=
  if idx.toNat ≥ pwCap then s.fail .range
  else (s.setPw (s.pw.write idx.toNat b)).succeed 0

/-- `PWRD idx` (R182). -/
def execPwrd (idx : Pos) (s : State) : Result :=
  if idx.toNat ≥ pwCap then s.fail .range
  else s.succeed ((s.pw.read idx.toNat).setWidth 32)

/-- `PWLEN n` (R183). -/
def execPwlen (n : Pos) (s : State) : Result :=
  if n.toNat > 511 then s.fail .range
  else (s.setPwlen (n.setWidth 9)).succeed 0

/-- `PWCHK` (R184): writes no state, not even `CR.GRADE`. -/
def execPwchk (s : State) : Result :=
  match s.passwordGrade with
  | .error e => s.fail e
  | .ok g => s.succeed (g.code.setWidth 32)

end Sys2Proof.Machine
end

