-- ==== Sys2Proof/Machine/Schema.lean ====
section
/-! DEFINITION. The grade schema: `Pack` (R122 to R133) and `Unpack` (R136 to R139), the "literal contract" of the
payload layout (R135, R256). -/

set_option autoImplicit false

namespace Sys2Proof.Machine

/-! ### Which fields a grade carries (R121) -/

/-- Bronze and Silver carry the presence bitmap (R126). -/
def hasBitmap : Grade → Bool
  | .bronze | .silver => true
  | .gold => false

/-- Silver and Gold carry the stats (R127). -/
def hasStats : Grade → Bool
  | .bronze => false
  | .silver | .gold => true

/-- Gold carries the item table, the quantities and the coins (R128 to R132). -/
def hasItems : Grade → Bool
  | .bronze | .silver => false
  | .gold => true

/-! ### The offsets of R135 -/

/-- First position of the events (R125). -/
def eventBase : Nat := 56

/-- First position of the presence bitmap (R126). -/
def bitmapBase : Nat := 64

/-- First position of the stats: 64 for Gold, 72 below (R127, C2). -/
def statBase : Grade → Nat
  | .bronze | .silver => 72
  | .gold => 64

/-- Offset `o(f)` of a stat within its character (R127). -/
def statOffset : StatField → Nat
  | .hp => 0
  | .rp => 11
  | .attack => 22
  | .defense => 32
  | .agility => 42
  | .luck => 52

/-- Position of item identifier `t`: `312 + 9t + floor(t/7)` (R129, R256). -/
def itemPos (t : Nat) : Nat := 312 + 9 * t + t / syncEvery

/-- Position of the quantity `Q(c, k)`: `860 + 5(23c + k)` (R131). -/
def quantityPos (c k : Nat) : Nat := 860 + 5 * (23 * c + k)

/-- Position of the coins (R132). -/
def coinPos : Nat := 1320

/-! ### The head (R123, R124) -/

/-- A 28-bit block of four 7-bit registers "in reverse person-order", register 3 first (R123). -/
def headBlock (v : Vector (BitVec 7) 4) : List Bool :=
  bitsOfReg v[3] ++ bitsOfReg v[2] ++ bitsOfReg v[1] ++ bitsOfReg v[0]

/-- `HEAD_PERM` (R8, R124): the bit at payload position `p` is bit `headPerm[p]` of the levels block followed by the
companions block. The levels stay in order; the low 4 bits of the companions come before their high 24 (log 12). -/
def headPerm : List Nat := List.range 28 ++ [52, 53, 54, 55] ++ (List.range 24).map (28 + ·)

/-- `Head`, the first 56 payload bits (R124). -/
def packHead (ss : SaveState) : List Bool :=
  headPerm.map ((headBlock ss.level ++ headBlock ss.comp).getD · false)

/-- The two head blocks of a stream, the permutation undone: bit `j` of the blocks is at the position `p` with
`headPerm[p] = j` (R136). -/
def unpackHead (ba : List Bool) : List Bool :=
  (List.range headPerm.length).map fun j => bitAt ba (headPerm.idxOf j)

/-- The registers of a 28-bit block `L`: register `i` is `L[7i+6 : 7i]` (R136). -/
def registersOfBlock (block : List Bool) : Vector (BitVec 7) 4 :=
  Vector.ofFn fun i => BitVec.ofNat 7 (valueOf block >>> (7 * i.val))

/-! ### The other packed parts -/

/-- `Events`: six flags, then zero slots up to `EVENT_SLOTS` (R125). -/
def packEvents (ss : SaveState) : List Bool := takeBits eventSlots ss.event.toList

/-- The 60 item slots, `t = 15c + s` ascending (R129). -/
def itemList (table : ItemTable) : List Item := table.toList.flatMap Vector.toList

/-- Does any slot of any character hold an id (R126, D26)? -/
def holdsId (table : ItemTable) (id : ItemId) : Bool := (itemList table).any fun item => item.id == id

/-- `Bitmap`: bit `k` says whether any slot of any character holds `WATCH[k]` (R126). -/
def packBitmap (cfg : Params) (ss : SaveState) : List Bool := cfg.watch.toList.map (holdsId ss.item)

/-- `S(c)`: the six stats of one character (R127). -/
def packStats (t : Stats) : List Bool :=
  bitsOfReg t.hp ++ bitsOfReg t.rp ++ bitsOfReg t.attack ++ bitsOfReg t.defense ++ bitsOfReg t.agility ++ bitsOfReg t.luck

/-- `Items`: every identifier as 9 bits, one 0 bit after every 7th (R129). -/
def packItems (ss : SaveState) : List Bool :=
  (itemList ss.item).zipIdx.flatMap fun it =>
    bitsOfReg it.1.id ++ if (it.2 + 1) % syncEvery = 0 then [false] else []

/-- `first(c, k)`: the lowest slot of a character that holds the id (R130). -/
def firstSlot (slots : Vector Item 15) (id : ItemId) : Option (Fin 15) :=
  (List.finRange 15).find? fun s => slots[s].id == id

/-- `Q(c, k)`: the quantity of slot `first(c, k)`, or 0 (R131). -/
def quantityOf (slots : Vector Item 15) (id : ItemId) : BitVec 5 :=
  match firstSlot slots id with
  | some s => slots[s].qty
  | none => 0

/-- `Quantities`: for every character and stackable item, 5 bits (R131). -/
def packQuantities (cfg : Params) (ss : SaveState) : List Bool :=
  ss.item.toList.flatMap fun slots => cfg.stack.toList.flatMap fun id => bitsOfReg (quantityOf slots id)

/-- The parts before the padding (R122). -/
def packFields (cfg : Params) (ss : SaveState) (g : Grade) : List Bool :=
  packHead ss ++ packEvents ss
    ++ (if hasBitmap g then packBitmap cfg ss else [])
    ++ (if hasStats g then ss.stat.toList.flatMap packStats else [])
    ++ (if hasItems g then
          List.replicate 8 false ++ packItems ss ++ packQuantities cfg ss ++ bitsOfReg ss.coins
        else [])

/-- `Pack(SS, g)`: the parts, zero-padded to exactly `8 * P(g)` bits (R122, R133). -/
def pack (cfg : Params) (ss : SaveState) (g : Grade) : List Bool :=
  let bits := packFields cfg ss g
  bits ++ List.replicate (8 * g.payloadBytes - bits.length) false

/-! ### Unpacking -/

/-- The stats of character `c` in a payload of grade Silver or Gold (R137). -/
def unpackStats (g : Grade) (ba : List Bool) (c : Nat) : Stats :=
  let at_ (f : StatField) := statBase g + 60 * c + statOffset f
  { hp := memReadReg ba (at_ .hp) 11
    rp := memReadReg ba (at_ .rp) 11
    attack := memReadReg ba (at_ .attack) 10
    defense := memReadReg ba (at_ .defense) 10
    agility := memReadReg ba (at_ .agility) 10
    luck := memReadReg ba (at_ .luck) 8 }

/-- The identifier in slot `s` of character `c` of a Gold payload (R138). -/
def unpackId (ba : List Bool) (c s : Nat) : ItemId := memReadReg ba (itemPos (15 * c + s)) 9

/-- The decoded quantity of slot `s` of character `c` of a Gold payload: the field `Q(c, k)` when the slot is the lowest
one of the character that holds its id and that id is `STACK[k]`, else 0 (R138, C14). Should `STACK` repeat an id, against
R9, the lowest `k` is meant (log 7). -/
def unpackQuantity (cfg : Params) (ba : List Bool) (c s : Nat) : BitVec 5 :=
  let id := unpackId ba c s
  let k := cfg.stack.toList.idxOf id
  if k < 23 ∧ ∀ s' < s, unpackId ba c s' ≠ id then memReadReg ba (quantityPos c k) 5 else 0

/-- The item table of a Gold payload (R138). -/
def unpackItems (cfg : Params) (ba : List Bool) : ItemTable :=
  Vector.ofFn fun c => Vector.ofFn fun s => ⟨unpackId ba c.val s.val, unpackQuantity cfg ba c.val s.val⟩

/-- Put an item into the lowest empty slot (id 0) of a character; with no empty slot it is dropped (R139), and an id that
some slot of some character already holds is not put in again (D26; log 6). -/
def placeItem (c : Fin 4) (table : ItemTable) (id : ItemId) : ItemTable :=
  if holdsId table id then table
  else
    match firstSlot table[c] 0 with
    | some s => table.set c (table[c].set s ⟨id, 0⟩)
    | none => table

/-- The watched ids whose bitmap bit `k` is 1, `k` ascending (R139). -/
def bitmapIds (cfg : Params) (ba : List Bool) : List ItemId :=
  (cfg.watch.toList.zipIdx.filter fun wk => bitAt ba (bitmapBase + wk.2)).map Prod.fst

/-- The placeholder table with the bitmap items applied to character `WATCH_CHAR`, in the order of the watch-list (R139,
D26). -/
def applyBitmap (cfg : Params) (table : ItemTable) (ids : List ItemId) : ItemTable :=
  ids.foldl (placeItem cfg.watchChar) table

/-- Stats of the decoded SaveState at every grade (R137). -/
def unpackAllStats (cfg : Params) (g : Grade) (ba : List Bool) : Vector Stats 4 :=
  if hasStats g then Vector.ofFn fun c => unpackStats g ba c.val else cfg.defStats

/-- Items of the decoded SaveState at every grade (R138, R139). -/
def unpackTable (cfg : Params) (ba : List Bool) : Grade → ItemTable
  | .bronze => applyBitmap cfg cfg.defItemsBronze (bitmapIds cfg ba)
  | .silver => applyBitmap cfg cfg.defItemsSilver (bitmapIds cfg ba)
  | .gold => unpackItems cfg ba

/-- Coins of the decoded SaveState at every grade (R138, R139). -/
def unpackCoins (cfg : Params) (ba : List Bool) : Grade → BitVec 24
  | .bronze => cfg.defCoinsBronze
  | .silver => cfg.defCoinsSilver
  | .gold => memReadReg ba coinPos 24

/-- `Unpack(g)`: the SaveState read from the stream as a payload of grade `g` (R136 to R139). -/
def unpack (cfg : Params) (g : Grade) (ba : List Bool) : SaveState where
  level := registersOfBlock ((unpackHead ba).take 28)
  comp := registersOfBlock ((unpackHead ba).drop 28)
  event := Vector.ofFn fun k => bitAt ba (eventBase + k.val)
  coins := unpackCoins cfg ba g
  stat := unpackAllStats cfg g ba
  item := unpackTable cfg ba g

end Sys2Proof.Machine
end

