-- ==== Sys2Proof/Machine/SaveRegs.lean ====
section
/-! DEFINITION. The meanings of the SaveState and schema commands (41_grade_schema.md, section 5). -/

set_option autoImplicit false

namespace Sys2Proof.Machine

/-- `SSWR sel, v` (R141): the selector is checked first, then the width; an over-wide value is refused, not truncated. -/
def execSswr (sel : Pos) (v : Data) (s : State) : Result :=
  match saveRegOf sel with
  | none => s.fail .illegal
  | some r => if r.accepts v then (s.setSs (s.ss.write v r)).succeed 0 else s.fail .width

/-- `SSRD sel` (R142). -/
def execSsrd (sel : Pos) (s : State) : Result :=
  match saveRegOf sel with
  | none => s.fail .illegal
  | some r => s.succeed (s.ss.read r)

/-- The accumulator holds the payload of grade `g` built from `SS` (R143). -/
def State.packed (s : State) (g : Grade) : State := s.setBa (pack s.cfg s.ss g)

/-- `SS` is filled from the accumulator read as a payload of grade `g` (R144). -/
def State.unpacked (s : State) (g : Grade) : State := s.setSs (unpack s.cfg g s.ba)

/-- `PACK g` (R143). -/
def execPack (g : GradeCode) (s : State) : Result :=
  match gradeOfCode g with
  | none => s.fail .illegal
  | some gr => (s.packed gr).succeed (dataOf (8 * gr.payloadBytes))

/-- `UNPACK g` (R144). -/
def execUnpack (g : GradeCode) (s : State) : Result :=
  match gradeOfCode g with
  | none => s.fail .illegal
  | some gr => (s.unpacked gr).succeed 0

end Sys2Proof.Machine
end

