-- ==== Sys2Proof/Machine/Ped.lean ====
section
/-! DEFINITION. The meanings of the pipeline commands (44_pipeline.md). -/

set_option autoImplicit false

namespace Sys2Proof.Machine

/-- The key of a payload: `KeyOf` of its `P(g)` bytes (R191, step 7). -/
def payloadCrc (payload : List Bool) (g : Grade) : BitVec 16 := crcBytes crcInit (bytesOf payload g.payloadBytes)

/-- The framed stream of a payload (R191, step 7). -/
def frame (payload : List Bool) (g : Grade) : List Bool := encrypt payload (keyOfCrc (payloadCrc payload g))

/-- The password of a SaveState, `Encode(s, g)` (R191). -/
def encodePassword (cfg : Params) (ss : SaveState) (g : Grade) : List Group :=
  scramble (regroup (frame (pack cfg ss g) g))

/-- What `ENCODE` leaves behind (R192): the framed stream, the register, the key, the password, its length, the grade. -/
def State.encoded (s : State) (g : Grade) : State :=
  let payload := pack s.cfg s.ss g
  let r := payloadCrc payload g
  { s with
    ba := frame payload g
    crc := r
    key := keyOfCrc r
    pw := s.pw.writeGroups (encodePassword s.cfg s.ss g)
    pwlen := BitVec.ofNat 9 g.passwordLength
    grade := g.code }

/-- `ENCODE g` (R192). -/
def execEncode (g : GradeCode) (s : State) : Result :=
  match gradeOfCode g with
  | none => s.fail .illegal
  | some gr => (s.encoded gr).succeed (dataOf gr.passwordLength)

/-- What `DECODE` leaves behind for a password of grade `g` (R193, R194): the decrypted stream, the recovered key, the
SaveState, the grade. -/
def State.decoded (s : State) (g : Grade) : State :=
  let stream := ungroup (unscramble s.groups)
  { s with
    ba := decrypt stream
    key := recoveredKey stream
    ss := unpack s.cfg g (decrypt stream)
    grade := g.code }

/-- `DECODE` (R194). -/
def execDecode (s : State) : Result :=
  match s.passwordGrade with
  | .error e => s.fail e
  | .ok g => (s.decoded g).succeed (g.code.setWidth 32)

/-- `CONVERT t` (R198): the checks in their order, then the three-way choice of R197. -/
def execConvert (t : GradeCode) (s : State) : Result :=
  match gradeOfCode t with
  | none => s.fail .illegal
  | some target =>
    match s.passwordGrade with
    | .error e => s.fail e
    | .ok source =>
      if t.toNat > source.code.toNat then s.fail .grade
      else if t = source.code then (s.setGrade source.code).succeed (dataOf source.passwordLength)
      else ((s.decoded source).encoded target).succeed (dataOf target.passwordLength)

end Sys2Proof.Machine
end

