-- ==== Sys2Proof/Machine/System.lean ====
section
/-! DEFINITION. The meanings of the system commands (45_system.md). -/

set_option autoImplicit false

namespace Sys2Proof.Machine

/-- `NOP` (R210). -/
def execNop (s : State) : Result := s.succeed 0

/-- `CLR` (R211): `CR`, `SS`, `PW` and the accumulator at their reset values. -/
def execClr (s : State) : Result := s.toReset.succeed 0

/-- `RDCR sel` (R212). -/
def execRdcr (sel : Pos) (s : State) : Result :=
  match ctrlRegOf sel with
  | none => s.fail .illegal
  | some r => s.succeed (s.readCtrl r)

end Sys2Proof.Machine
end

