-- ==== Sys2Proof/Machine/Dispatch.lean ====
section
/-! DEFINITION. One arm per command: its meaning. -/

namespace Sys2Proof.Machine

/-- The effect of one command (R78). -/
def exec (i : Instr) (s : State) : Host.Outcome State Fault Refusal :=
  match i with
  | .nop => Sys2Proof.Machine.execNop s
  | .clr => Sys2Proof.Machine.execClr s
  | .rdcr sel => Sys2Proof.Machine.execRdcr sel s
  | .baclr => Sys2Proof.Machine.execBaclr s
  | .pushb v => Sys2Proof.Machine.execPushb v s
  | .pushn n v => Sys2Proof.Machine.execPushn n v s
  | .repl n pos v => Sys2Proof.Machine.execRepl n pos v s
  | .subb lo hi => Sys2Proof.Machine.execSubb lo hi s
  | .sswr sel v => Sys2Proof.Machine.execSswr sel v s
  | .ssrd sel => Sys2Proof.Machine.execSsrd sel s
  | .pack g => Sys2Proof.Machine.execPack g s
  | .unpack g => Sys2Proof.Machine.execUnpack g s
  | .crcinit => Sys2Proof.Machine.execCrcinit s
  | .crcupd b => Sys2Proof.Machine.execCrcupd b s
  | .crcfin => Sys2Proof.Machine.execCrcfin s
  | .keygen nbytes => Sys2Proof.Machine.execKeygen nbytes s
  | .encr => Sys2Proof.Machine.execEncr s
  | .decr => Sys2Proof.Machine.execDecr s
  | .regrp => Sys2Proof.Machine.execRegrp s
  | .ungrp => Sys2Proof.Machine.execUngrp s
  | .scram => Sys2Proof.Machine.execScram s
  | .unscr => Sys2Proof.Machine.execUnscr s
  | .pwwr idx b => Sys2Proof.Machine.execPwwr idx b s
  | .pwrd idx => Sys2Proof.Machine.execPwrd idx s
  | .pwlen n => Sys2Proof.Machine.execPwlen n s
  | .pwchk => Sys2Proof.Machine.execPwchk s
  | .encode g => Sys2Proof.Machine.execEncode g s
  | .decode => Sys2Proof.Machine.execDecode s
  | .convert t => Sys2Proof.Machine.execConvert t s

end Sys2Proof.Machine
end

