-- ==== Sys2Proof/Machine/Port.lean ====
section
/-! DEFINITION. The command port (R20, R251): what the block does with what the host presents. The block fetches nothing
(R22): taking the next thing the host does stands in the place of a fetch. -/

set_option autoImplicit false

namespace Sys2Proof.Machine

/-- A command word is executed: a legal word is its command, an illegal word "is executed as a command that fails with
`ERR_ILLEGAL` and changes no state" (R79). -/
def runWord (w : CmdWord) (s : State) : Result :=
  match decode w with
  | .ok i => exec i s
  | .error _ => s.fail .illegal

/-- One thing the host does: a command runs to completion (R20); reset puts the block into its reset state (R250). -/
def runEvent (s : State) : HostEvent → Result
  | .command w => runWord w s
  | .reset => .next s.toReset

/-- The next thing the host does is taken from the port and run; with nothing presented the block "is idle and keeps all
state" (R236) and gives no response. -/
def portStep (s : State) : Result :=
  match s.host with
  | [] => .next (s.setRsp none)
  | e :: rest => runEvent (s.setHost rest) e

/-- The host presents a word before all else it will do. -/
def State.present (s : State) (w : CmdWord) : State := s.setHost (.command w :: s.host)

end Sys2Proof.Machine
end

