-- ==== Sys2Proof/Machine/Step.lean ====
section
/-! DEFINITION. One step of the block: one command to completion (R20, R62). -/

set_option autoImplicit false

namespace Sys2Proof.Machine

/-- One step: the next thing the host does, run to completion. -/
def step (s : State) : Host.Outcome State Fault Refusal := portStep s

/-- The state in which the host presents the command of a table row next (log 2). -/
def State.withFetchWord (s : State) (nbits w : Nat) : State := s.present (tableWord nbits w)

end Sys2Proof.Machine
end

