-- ==== Sys2Proof/Safety.lean ====
section
/-! DEFINITION. The terms the statements use: the invariant of the state, the symbols a command may interpret, sequences
of commands, the statuses of R237, and `reconstruct` of R145. -/

set_option autoImplicit false

namespace Sys2Proof.Machine

/-- The invariant every step keeps: `CR.BALEN <= 2048` always (R26), and the password buffer is in canonical form with no
cell at or beyond `PW_CAP` (R30). -/
abbrev State.Inv (s : State) : Prop := s.ba.length ≤ 2048 ∧ s.pw.wf = true

/-- Every entry below `CR.PWLEN` is in the domain 0x00 to 0x3F (R223). -/
abbrev State.InDomain (s : State) : Prop := ∀ i < s.pwlen.toNat, (s.pw.read i).toNat ≤ 0x3F

/-- The buffer holds a password that passes the checks of R195, of grade `g`. -/
abbrev State.HoldsPassword (s : State) (g : Grade) : Prop := s.pwlen.toNat = g.passwordLength ∧ s.InDomain

/-- The state with the response of a command that succeeds with data `d`. -/
abbrev State.ok (s : State) (d : Data) : State := { s with rsp := some ⟨.ok, d⟩ }

/-- The state after a command that fails: the response, and nothing else (R226). -/
abbrev State.failed (s : State) (e : Status) : State := { s with rsp := some ⟨e, 0⟩ }

/-- Commands issued one after another (R62). -/
def runCommands : List Instr → State → Result
  | [], s => .next s
  | i :: is, s =>
    match exec i s with
    | .next t => runCommands is t
    | .fault r => .fault r
    | .refused r => .refused r

/-- The table of R237: the statuses besides `OK` that a command can return. -/
def failuresOf : Instr → List Status
  | .nop | .clr | .baclr | .crcinit | .crcupd _ | .crcfin => []
  | .rdcr _ | .ssrd _ => [.illegal]
  | .sswr _ _ => [.illegal, .width]
  | .pushb _ => [.cap]
  | .pushn _ _ => [.range, .cap]
  | .repl _ _ _ | .subb _ _ | .keygen _ | .decr | .pwwr _ _ | .pwrd _ | .pwlen _ => [.range]
  | .encr => [.align, .cap]
  | .regrp => [.cap]
  | .ungrp | .scram | .unscr => [.range, .symbol]
  | .pwchk | .decode => [.length, .symbol]
  | .pack _ | .unpack _ | .encode _ => [.illegal]
  | .convert _ => [.illegal, .length, .symbol, .grade]

/-- The item a Gold round trip leaves in slot `s` of a character: the id, and the quantity only in the lowest slot that
holds its id, when that id is stackable (R145). -/
def reconstructItem (cfg : Params) (slots : Vector Item 15) (s : Fin 15) : Item :=
  if slots[s].id ∈ cfg.stack.toList ∧ ∀ s' < s, slots[s'].id ≠ slots[s].id then slots[s] else ⟨slots[s].id, 0⟩

/-- The watched ids that some slot of some character holds, in the order of the watch-list (R126). -/
def heldWatchIds (cfg : Params) (ss : SaveState) : List ItemId :=
  cfg.watch.toList.filter fun w => decide (∃ c : Fin 4, ∃ s : Fin 15, ss.item[c][s].id = w)

/-- `reconstruct(s, g)`, spelled out as R145 does: what the grade stores, and the placeholders of the grade for what it
does not store, the item table built as R139 and D26 say (log 6). -/
def reconstruct (cfg : Params) (ss : SaveState) : Grade → SaveState
  | .bronze =>
    { ss with
      stat := cfg.defStats
      item := applyBitmap cfg cfg.defItemsBronze (heldWatchIds cfg ss)
      coins := cfg.defCoinsBronze }
  | .silver =>
    { ss with
      item := applyBitmap cfg cfg.defItemsSilver (heldWatchIds cfg ss)
      coins := cfg.defCoinsSilver }
  | .gold =>
    { ss with item := Vector.ofFn fun c => Vector.ofFn fun s => reconstructItem cfg ss.item[c] s }

end Sys2Proof.Machine
end

