-- ==== Sys2Proof/Certificates/Slice0/Obligations.lean ====
section
/-! DEFINITION. The statements about the block, one definition each; OBLIGATIONS.json lists them with the rules they
formalise. `exec i s = .next t` says that the command completes with the state `t`; a record update `{ s with … }` on the
right-hand side says that every field not named in it is unchanged. -/

set_option autoImplicit false

open Sys2Proof Sys2Proof.Machine

/-! ### The step and the command word -/

/-- R20, R62, R72: a legal word that the host presents is executed as the command it decodes to, and what the host does
after it comes next. -/
def Obligations.StepRunsDecodedCommand : Prop :=
  ∀ (s : State) (w : CmdWord) (i : Instr) (rest : List HostEvent),
    s.host = .command w :: rest → decode w = .ok i → step s = exec i { s with host := rest }

/-- R79: a word that matches no row of the table under the row's mask fails with `ERR_ILLEGAL` and changes no state. -/
def Obligations.IllegalWordFailsAndChangesNothing : Prop :=
  ∀ (s : State) (w : CmdWord) (rest : List HostEvent),
    s.host = .command w :: rest →
      (∀ row ∈ opcodeTable, w &&& row.format.mask ≠ row.op.setWidth 64 <<< 56) →
      step s = .next { s with host := rest, rsp := some ⟨.illegal, 0⟩ }

/-- R236: with nothing presented the block keeps all state; that the model then shows no response is its own choice
(log 8). -/
def Obligations.IdleBlockKeepsAllState : Prop :=
  ∀ s : State, s.host = [] → step s = .next { s with rsp := none }

/-- R33, R250, R211: reset and `CLR` give the values of R33, in every state, and so does `State.reset`; the configuration
stays (R31). That the host's remaining events stay is the model's form of the port (log 1, log 13). -/
def Obligations.ResetGivesTheResetValues : Prop :=
  ∀ (s : State) (rest : List HostEvent),
    ∃ t c, step { s with host := .reset :: rest } = .next t ∧ t.cfg = s.cfg ∧ t.host = rest ∧
      exec .clr s = .next c ∧ c.cfg = s.cfg ∧ c.host = s.host ∧
      ∀ u ∈ [t, c, State.reset],
        u.readCtrl .balen = 0 ∧ u.readCtrl .crc = 0xFFFF ∧ u.readCtrl .key = 0 ∧ u.readCtrl .pwlen = 0 ∧
          u.readCtrl .grade = 0 ∧ u.readCtrl .bacap = 2048 ∧ u.readCtrl .pwcap = 260 ∧
          (∀ r, u.ss.read r = 0) ∧ (∀ i, u.pw.read i = 0) ∧ u.ba = []

/-- R79, R83: decoding the word of a command gives the command back, every operand at every value. -/
def Obligations.DecodeOfEncodeIsTheCommand : Prop := ∀ i : Instr, decode (encode i) = .ok i

/-- R79: a legal word is the word of exactly one command: encoding what it decodes to gives the word back. -/
def Obligations.EncodeOfDecodeIsTheWord : Prop := ∀ (w : CmdWord) (i : Instr), decode w = .ok i → encode i = w

/-- R83: the worked examples of the spec, one word or more of every family, decode to the commands they stand for. -/
def Obligations.SpecWordsDecode : Prop :=
  decode 0x0000000000000000 = .ok .nop ∧
  decode 0x0200000100000000 = .ok (.rdcr 1) ∧
  decode 0x12200000000000A5 = .ok (.pushn 8 0xA5) ∧
  decode 0x1310000C0000000F = .ok (.repl 4 12 0xF) ∧
  decode 0x1400000600000011 = .ok (.subb 6 17) ∧
  decode 0x200000000000001C = .ok (.sswr 0 28) ∧
  decode 0x2201000000000000 = .ok (.pack 1) ∧
  decode 0x3100000000000012 = .ok (.crcupd 0x12) ∧
  decode 0x3300000200000000 = .ok (.keygen 2) ∧
  decode 0x4400000F0000003F = .ok (.pwwr 15 0x3F) ∧
  decode 0x4600001000000000 = .ok (.pwlen 16) ∧
  decode 0x5003000000000000 = .ok (.encode 3)

/-! ### Properties of every command -/

/-- R26, R30: every step keeps the invariant, from every state that meets it. -/
def Obligations.StepKeepsTheInvariant : Prop :=
  ∀ s t : State, s.Inv → step s = .next t → t.Inv

/-- R33, R26: the reset state meets the invariant. -/
def Obligations.ResetMeetsTheInvariant : Prop := State.reset.Inv

/-- R75, R220: every command in every state ends with a response; its data is 0 whenever the status is not `OK`. -/
def Obligations.EveryCommandResponds : Prop :=
  ∀ (i : Instr) (s : State), ∃ t r, exec i s = .next t ∧ t.rsp = some r ∧ (r.status ≠ .ok → r.data = 0)

/-- R226: a failed command writes no state at all. -/
def Obligations.FailedCommandWritesNoState : Prop :=
  ∀ (i : Instr) (s t : State) (r : Response),
    exec i s = .next t → t.rsp = some r → r.status ≠ .ok → t = { s with rsp := some r }

/-- R237: a command returns `OK` or a status its row of the table lists, and every listed status is one that some command
of the same opcode returns in some state. -/
def Obligations.StatusesOfEveryCommand : Prop :=
  (∀ (i : Instr) (s t : State) (r : Response),
      exec i s = .next t → t.rsp = some r → r.status = .ok ∨ r.status ∈ failuresOf i) ∧
    ∀ (i : Instr), ∀ e ∈ failuresOf i, ∃ (j : Instr) (s : State),
      fieldOp (encode j) = fieldOp (encode i) ∧ exec j s = .next (s.failed e)

/-- R58: `SUBB`, `PWRD`, `SSRD`, `RDCR` and `PWCHK` change no state, and repeating any of them returns the same value. -/
def Obligations.ReadingCommandsChangeNoState : Prop :=
  ∀ (i : Instr) (s : State),
    ((∃ lo hi, i = .subb lo hi) ∨ (∃ x, i = .pwrd x) ∨ (∃ x, i = .ssrd x) ∨ (∃ x, i = .rdcr x) ∨ i = .pwchk) →
      ∃ r, exec i s = .next { s with rsp := some r } ∧
        exec i { s with rsp := some r } = .next { s with rsp := some r }

/-- R23: no command reads the outcome of an earlier command. -/
def Obligations.EarlierResponseIsNeverRead : Prop :=
  ∀ (i : Instr) (s : State) (r : Option Response), exec i { s with rsp := r } = exec i s

/-- R31, R62: no step writes the configuration, and the host's commands are taken in the order it presents them, one a
step. -/
def Obligations.StepKeepsConfigurationAndOrder : Prop :=
  ∀ s t : State, step s = .next t → t.cfg = s.cfg ∧ t.host = s.host.tail

/-- R80: a command with an operand out of range is refused in every state: `ERR_ILLEGAL` for a bad grade or selector,
`ERR_RANGE` for a bad count, index or length. -/
def Obligations.OperandOutOfRangeIsRefused : Prop :=
  ∀ (i : Instr) (s : State), i.wf = false →
    exec i s = .next (s.failed (match i with
      | .pushn _ _ | .repl _ _ _ | .pwwr _ _ | .pwrd _ | .pwlen _ => .range
      | _ => .illegal))

/-! ### System commands -/

/-- R210. -/
def Obligations.NopDoesNothing : Prop := ∀ s : State, exec .nop s = .next (s.ok 0)

/-- R211: `CLR` sets everything to its reset value; the state after it is the state after reset, but for the response. That
reset leaves no response is the model's choice (log 8), and that both keep the host's remaining events is the model's form of
the port (log 1). -/
def Obligations.ClrReturnsToReset : Prop :=
  ∀ s : State, exec .clr s = .next ({ State.reset with cfg := s.cfg, host := s.host }.ok 0) ∧
    ∀ rest, step { s with host := .reset :: rest } = .next { State.reset with cfg := s.cfg, host := rest }

/-- R212, R24: the seven control registers, zero-extended; a reserved selector fails. -/
def Obligations.RdcrReadsControlRegisters : Prop :=
  ∀ s : State,
    exec (.rdcr 0) s = .next (s.ok (BitVec.ofNat 32 s.ba.length)) ∧
    exec (.rdcr 1) s = .next (s.ok (s.crc.setWidth 32)) ∧
    exec (.rdcr 2) s = .next (s.ok (s.key.setWidth 32)) ∧
    exec (.rdcr 3) s = .next (s.ok (s.pwlen.setWidth 32)) ∧
    exec (.rdcr 4) s = .next (s.ok (s.grade.setWidth 32)) ∧
    exec (.rdcr 5) s = .next (s.ok 2048) ∧
    exec (.rdcr 6) s = .next (s.ok 260) ∧
    ∀ sel : Pos, 6 < sel.toNat → exec (.rdcr sel) s = .next (s.failed .illegal)

/-! ### The bit accumulator -/

/-- R103. -/
def Obligations.BaclrEmptiesTheAccumulator : Prop :=
  ∀ s : State, exec .baclr s = .next ({ s with ba := [] }.ok 0)

/-- R104: `PUSHB` appends the low bit of its operand, and fails with `ERR_CAP` when the memory is full. -/
def Obligations.PushbAppendsTheLowBit : Prop :=
  ∀ (s : State) (v : Data),
    (s.ba.length < 2048 → exec (.pushb v) s = .next ({ s with ba := s.ba ++ [v.getLsbD 0] }.ok 0)) ∧
      (2048 ≤ s.ba.length → exec (.pushb v) s = .next (s.failed .cap))

/-- R105: `PUSHN` appends the `n` low bits, most significant first, or none of them. -/
def Obligations.PushnAppendsTheLowBits : Prop :=
  ∀ (s : State) (n : Count) (v : Data),
    (n.toNat ≤ 32 → s.ba.length + n.toNat ≤ 2048 →
      ∃ ba', exec (.pushn n v) s = .next ({ s with ba := ba' }.ok 0) ∧ ba'.length = s.ba.length + n.toNat ∧
        (∀ p < s.ba.length, bitAt ba' p = bitAt s.ba p) ∧
        ∀ k < n.toNat, bitAt ba' (s.ba.length + k) = v.getLsbD (n.toNat - 1 - k)) ∧
      (32 < n.toNat → exec (.pushn n v) s = .next (s.failed .range)) ∧
      (n.toNat ≤ 32 → 2048 < s.ba.length + n.toNat → exec (.pushn n v) s = .next (s.failed .cap))

/-- R106: `REPL` overwrites `n` bits inside the current length, most significant first, and no other cell. -/
def Obligations.ReplOverwritesInsideTheLength : Prop :=
  ∀ (s : State) (n : Count) (pos : Pos) (v : Data),
    (n.toNat ≤ 32 → pos.toNat < s.ba.length → pos.toNat + n.toNat ≤ s.ba.length →
      ∃ ba', exec (.repl n pos v) s = .next ({ s with ba := ba' }.ok 0) ∧ ba'.length = s.ba.length ∧
        ∀ p, bitAt ba' p =
          if pos.toNat ≤ p ∧ p < pos.toNat + n.toNat then v.getLsbD (n.toNat - 1 - (p - pos.toNat)) else bitAt s.ba p) ∧
      (32 < n.toNat ∨ s.ba.length ≤ pos.toNat ∨ s.ba.length < pos.toNat + n.toNat →
        exec (.repl n pos v) s = .next (s.failed .range))

/-- R107, R102, R101: `SUBB` returns the inclusive range, most significant bit first, reading 0 at or beyond the length;
the empty range is 0; a range wider than 32 bits is refused. -/
def Obligations.SubbReadsTheRange : Prop :=
  ∀ (s : State) (lo hi : Pos),
    (lo.toNat ≤ hi.toNat → hi.toNat - lo.toNat < 32 →
      ∃ d : Data, exec (.subb lo hi) s = .next (s.ok d) ∧
        ∀ k < 32, d.getLsbD k = (decide (k ≤ hi.toNat - lo.toNat) && s.ba[hi.toNat - k]?.getD false)) ∧
      (hi.toNat < lo.toNat → exec (.subb lo hi) s = .next (s.ok 0)) ∧
      (lo.toNat + 32 ≤ hi.toNat → exec (.subb lo hi) s = .next (s.failed .range))

/-- R108: the five laws (a) to (e) of the accumulator. -/
def Obligations.AccumulatorLaws : Prop :=
  (∀ (s t : State) (n : Count) (v : Data), exec (.pushn n v) s = .next (t.ok 0) →
    (0 < n.toNat → subBits t.ba s.ba.length (s.ba.length + n.toNat - 1) = v.toNat % 2 ^ n.toNat) ∧
      ∀ lo hi, hi < s.ba.length → subBits t.ba lo hi = subBits s.ba lo hi) ∧
  (∀ (s t : State) (n : Count) (pos : Pos) (v : Data), exec (.repl n pos v) s = .next (t.ok 0) →
    (0 < n.toNat → subBits t.ba pos.toNat (pos.toNat + n.toNat - 1) = v.toNat % 2 ^ n.toNat) ∧
      t.ba.length = s.ba.length ∧
      ∀ p, (p < pos.toNat ∨ pos.toNat + n.toNat ≤ p) → bitAt t.ba p = bitAt s.ba p) ∧
  (∀ (ba : List Bool) (lo m hi : Nat), lo ≤ m → m < hi →
    subBits ba lo hi = subBits ba lo m <<< (hi - m) ||| subBits ba (m + 1) hi) ∧
  (∀ (s : State) (n1 n2 : Count) (v1 v2 : Data), n1.toNat + n2.toNat ≤ 32 →
    s.ba.length + n1.toNat + n2.toNat ≤ 2048 →
    ∃ t, runCommands [.pushn n1 v1, .pushn n2 v2] s = .next t ∧
      exec (.pushn (n1 + n2)
        (BitVec.ofNat 32 ((v1.toNat % 2 ^ n1.toNat) <<< n2.toNat ||| v2.toNat % 2 ^ n2.toNat))) s = .next t) ∧
  (∀ (ba : List Bool) (lo hi : Nat), lo < ba.length → ba.length ≤ hi →
    subBits ba lo hi = subBits ba lo (ba.length - 1) <<< (hi - ba.length + 1))

/-! ### SaveState registers and the grade schema -/

/-- R27: the selector map. -/
def Obligations.SelectorsNameTheRegisters : Prop :=
  (∀ c : Fin 4, saveRegOf (BitVec.ofNat 11 (0x000 + c.val)) = some (.level c)) ∧
  (∀ e : Fin 4, saveRegOf (BitVec.ofNat 11 (0x004 + e.val)) = some (.comp e)) ∧
  (∀ k : Fin 6, saveRegOf (BitVec.ofNat 11 (0x008 + k.val)) = some (.event k)) ∧
  saveRegOf 0x00E = some .coins ∧
  (∀ c : Fin 4, ∀ f : Fin 6, saveRegOf (BitVec.ofNat 11 (0x010 + 8 * c.val + f.val)) =
    some (.stat c ([StatField.hp, .rp, .attack, .defense, .agility, .luck][f.val]'(by simp)))) ∧
  (∀ c : Fin 4, ∀ s : Fin 15, saveRegOf (BitVec.ofNat 11 (0x040 + 16 * c.val + s.val)) = some (.item c s)) ∧
  saveRegOf 0x00F = none ∧
  (∀ c : Fin 4, saveRegOf (BitVec.ofNat 11 (0x010 + 8 * c.val + 6)) = none ∧
    saveRegOf (BitVec.ofNat 11 (0x010 + 8 * c.val + 7)) = none) ∧
  (∀ c : Fin 4, saveRegOf (BitVec.ofNat 11 (0x040 + 16 * c.val + 15)) = none) ∧
  ∀ a : Pos, 0x080 ≤ a.toNat → saveRegOf a = none

/-- R141: `SSWR` writes the register its selector names with a value that fits, and no other register; a value that does
not fit and a reserved selector are refused. -/
def Obligations.SswrWritesOneRegister : Prop :=
  ∀ (s : State) (sel : Pos) (v : Data),
    (saveRegOf sel = none → exec (.sswr sel v) s = .next (s.failed .illegal)) ∧
    ∀ r, saveRegOf sel = some r →
      let fits : Prop := match r with
        | .level _ | .comp _ => v.toNat ≤ 127
        | .event _ => v.toNat ≤ 1
        | .coins => v.toNat ≤ 0xFFFFFF
        | .stat _ .hp | .stat _ .rp => v.toNat ≤ 2047
        | .stat _ .attack | .stat _ .defense | .stat _ .agility => v.toNat ≤ 1023
        | .stat _ .luck => v.toNat ≤ 255
        | .item _ _ => v &&& 0xFFFF0600 = 0
      (fits → ∃ ss', exec (.sswr sel v) s = .next ({ s with ss := ss' }.ok 0) ∧ ss'.read r = v ∧
        ∀ r', r' ≠ r → ss'.read r' = s.ss.read r') ∧
      (¬ fits → exec (.sswr sel v) s = .next (s.failed .width))

/-- R142, R28: `SSRD` returns the register its selector names, an item as `(qty << 11) | id`. -/
def Obligations.SsrdReadsTheRegister : Prop :=
  ∀ (s : State) (sel : Pos),
    (saveRegOf sel = none → exec (.ssrd sel) s = .next (s.failed .illegal)) ∧
    ∀ r, saveRegOf sel = some r →
      exec (.ssrd sel) s = .next (s.ok (BitVec.ofNat 32 (match r with
        | .level c => s.ss.level[c].toNat
        | .comp e => s.ss.comp[e].toNat
        | .event k => s.ss.event[k].toNat
        | .coins => s.ss.coins.toNat
        | .stat c .hp => s.ss.stat[c].hp.toNat
        | .stat c .rp => s.ss.stat[c].rp.toNat
        | .stat c .attack => s.ss.stat[c].attack.toNat
        | .stat c .defense => s.ss.stat[c].defense.toNat
        | .stat c .agility => s.ss.stat[c].agility.toNat
        | .stat c .luck => s.ss.stat[c].luck.toNat
        | .item c k => (s.ss.item[c][k].qty.toNat <<< 11) ||| s.ss.item[c][k].id.toNat)))

/-- R143, R122: `PACK g` replaces the accumulator by the `8 * P(g)` bits of `Pack(SS, g)` and changes nothing else; grade
code 0 is illegal. -/
def Obligations.PackFillsTheAccumulator : Prop :=
  ∀ s : State,
    exec (.pack 0) s = .next (s.failed .illegal) ∧
    ∀ g : Grade, (pack s.cfg s.ss g).length = 8 * g.payloadBytes ∧
      exec (.pack g.code) s = .next ({ s with ba := pack s.cfg s.ss g }.ok (BitVec.ofNat 32 (8 * g.payloadBytes)))

/-- R123, R124, R125: the head and the events of every payload, bit by bit. -/
def Obligations.PackedHeadAndEvents : Prop :=
  ∀ (cfg : Params) (ss : SaveState) (g : Grade),
    (∀ c : Fin 4, ∀ j < 7, bitAt (pack cfg ss g) (7 * (3 - c.val) + (6 - j)) = ss.level[c].getLsbD j) ∧
    (∀ j < 4, bitAt (pack cfg ss g) (31 - j) = ss.comp[0].getLsbD j) ∧
    (∀ c : Fin 4, ∀ j < 7, 4 ≤ 7 * c.val + j →
      bitAt (pack cfg ss g) (32 + 7 * (3 - c.val) + (6 - j)) = ss.comp[c].getLsbD j) ∧
    (∀ k : Fin 6, bitAt (pack cfg ss g) (56 + k.val) = ss.event[k]) ∧
    bitAt (pack cfg ss g) 62 = false ∧ bitAt (pack cfg ss g) 63 = false

/-- R126, R127: the presence bitmap of Bronze and Silver, the stats of Silver and Gold. -/
def Obligations.PackedBitmapAndStats : Prop :=
  ∀ (cfg : Params) (ss : SaveState) (g : Grade),
    (g ≠ .gold → ∀ k : Fin 8,
      (bitAt (pack cfg ss g) (64 + k.val) = true ↔ ∃ c : Fin 4, ∃ s : Fin 15, ss.item[c][s].id = cfg.watch[k])) ∧
    (g ≠ .bronze → ∀ c : Fin 4,
      let base := (if g = .gold then 64 else 72) + 60 * c.val
      memRead (pack cfg ss g) base 11 = ss.stat[c].hp.toNat ∧
      memRead (pack cfg ss g) (base + 11) 11 = ss.stat[c].rp.toNat ∧
      memRead (pack cfg ss g) (base + 22) 10 = ss.stat[c].attack.toNat ∧
      memRead (pack cfg ss g) (base + 32) 10 = ss.stat[c].defense.toNat ∧
      memRead (pack cfg ss g) (base + 42) 10 = ss.stat[c].agility.toNat ∧
      memRead (pack cfg ss g) (base + 52) 8 = ss.stat[c].luck.toNat)

/-- R128, R129, R131, R132, R133: the parts only Gold has, with their sync and padding bits. -/
def Obligations.PackedGoldItemsQuantitiesCoins : Prop :=
  ∀ (cfg : Params) (ss : SaveState),
    memRead (pack cfg ss .gold) 304 8 = 0 ∧
    (∀ c : Fin 4, ∀ s : Fin 15,
      memRead (pack cfg ss .gold) (312 + 9 * (15 * c.val + s.val) + (15 * c.val + s.val) / 7) 9 = ss.item[c][s].id.toNat) ∧
    (∀ m < 8, bitAt (pack cfg ss .gold) (375 + 64 * m) = false) ∧
    (∀ c : Fin 4, ∀ k : Fin 23, ∀ s : Fin 15, ss.item[c][s].id = cfg.stack[k] →
      (∀ s' < s, ss.item[c][s'].id ≠ cfg.stack[k]) →
      memRead (pack cfg ss .gold) (860 + 5 * (23 * c.val + k.val)) 5 = ss.item[c][s].qty.toNat) ∧
    (∀ c : Fin 4, ∀ k : Fin 23, (∀ s : Fin 15, ss.item[c][s].id ≠ cfg.stack[k]) →
      memRead (pack cfg ss .gold) (860 + 5 * (23 * c.val + k.val)) 5 = 0) ∧
    memRead (pack cfg ss .gold) 1320 24 = ss.coins.toNat ∧
    ∀ p, 1344 ≤ p → bitAt (pack cfg ss .gold) p = false

/-- R144, R136, R137: `UNPACK g` writes all of `SS` and nothing else: levels, companions and events from their offsets,
stats from theirs or from the placeholders, coins likewise (R138, R139). -/
def Obligations.UnpackReadsTheFields : Prop :=
  ∀ s : State,
    exec (.unpack 0) s = .next (s.failed .illegal) ∧
    ∀ g : Grade, ∃ ss', exec (.unpack g.code) s = .next ({ s with ss := ss' }.ok 0) ∧
      (∀ i : Fin 4, ss'.level[i].toNat = memRead s.ba 0 28 >>> (7 * i.val) % 128) ∧
      (∀ i : Fin 4, ss'.comp[i].toNat = (memRead s.ba 32 24 <<< 4 ||| memRead s.ba 28 4) >>> (7 * i.val) % 128) ∧
      (∀ k : Fin 6, ss'.event[k].toNat = memRead s.ba (56 + k.val) 1) ∧
      (g = .bronze → ss'.stat = s.cfg.defStats) ∧
      (g ≠ .bronze → ∀ c : Fin 4,
        let base := (if g = .gold then 64 else 72) + 60 * c.val
        ss'.stat[c].hp.toNat = memRead s.ba base 11 ∧ ss'.stat[c].rp.toNat = memRead s.ba (base + 11) 11 ∧
        ss'.stat[c].attack.toNat = memRead s.ba (base + 22) 10 ∧ ss'.stat[c].defense.toNat = memRead s.ba (base + 32) 10 ∧
        ss'.stat[c].agility.toNat = memRead s.ba (base + 42) 10 ∧ ss'.stat[c].luck.toNat = memRead s.ba (base + 52) 8) ∧
      (g = .bronze → ss'.coins = s.cfg.defCoinsBronze) ∧ (g = .silver → ss'.coins = s.cfg.defCoinsSilver) ∧
      (g = .gold → ss'.coins.toNat = memRead s.ba 1320 24)

/-- R138: the item table of a Gold payload: ids from their offsets; a quantity only in the lowest slot of the character
that holds a stackable id, from the field of that item; every other quantity 0. -/
def Obligations.UnpackGoldItemTable : Prop :=
  ∀ s : State, s.cfg.Valid → ∃ ss', exec (.unpack Grade.gold.code) s = .next ({ s with ss := ss' }.ok 0) ∧
    ∀ c : Fin 4, ∀ k : Fin 15,
      ss'.item[c][k].id.toNat = memRead s.ba (312 + 9 * (15 * c.val + k.val) + (15 * c.val + k.val) / 7) 9 ∧
      (∀ j : Fin 23, ss'.item[c][k].id = s.cfg.stack[j] → (∀ k' < k, ss'.item[c][k'].id ≠ ss'.item[c][k].id) →
        ss'.item[c][k].qty.toNat = memRead s.ba (860 + 5 * (23 * c.val + j.val)) 5) ∧
      ((∀ j : Fin 23, ss'.item[c][k].id ≠ s.cfg.stack[j]) ∨ (∃ k' < k, ss'.item[c][k'].id = ss'.item[c][k].id) →
        ss'.item[c][k].qty = 0)

/-- R139 with D26: the item table of a Bronze or Silver payload is the placeholder table with every watched item whose bit
is 1, and which no slot of any character holds, put into the lowest empty slot of character `WATCH_CHAR`, if it has one.
The condition on the id is D26's, which R139 names as its decision and does not repeat in its procedure; that the model has
it is log 6. Where the parameters meet the constraints of R9 (distinct `WATCH` ids, none of them in the placeholder
table), the table is the one of R139's procedure as it is printed. -/
def Obligations.UnpackPlaceholderItemTable : Prop :=
  ∀ (s : State) (g : Grade), g ≠ .gold →
    let wc := s.cfg.watchChar
    let defaults := if g = .bronze then s.cfg.defItemsBronze else s.cfg.defItemsSilver
    ∃ ss', exec (.unpack g.code) s = .next ({ s with ss := ss' }.ok 0) ∧
      (∀ c : Fin 4, c ≠ wc → ss'.item[c] = defaults[c]) ∧
      ss'.item = (List.finRange 8).foldl (fun table k =>
        if memRead s.ba (64 + k.val) 1 = 1 ∧ ∀ c : Fin 4, ∀ i : Fin 15, table[c][i].id ≠ s.cfg.watch[k] then
          match (List.finRange 15).find? (fun i => table[wc][i].id == 0) with
          | some i => table.set wc (table[wc].set i ⟨s.cfg.watch[k], 0⟩)
          | none => table
        else table) defaults ∧
      (s.cfg.Valid → (∀ c : Fin 4, ∀ i : Fin 15, ∀ k : Fin 8, defaults[c][i].id ≠ s.cfg.watch[k]) →
        ss'.item[wc] = (List.finRange 8).foldl (fun slots k =>
          if memRead s.ba (64 + k.val) 1 = 1 then
            match (List.finRange 15).find? (fun i => slots[i].id == 0) with
            | some i => slots.set i ⟨s.cfg.watch[k], 0⟩
            | none => slots
          else slots) defaults[wc])

/-! ### The checksum cipher -/

/-- R152: `CrcByte` by the rule's pseudocode on natural numbers, masked after every addition; and the mask may as well be
applied once at the end. -/
def Obligations.CrcByteAddsWithCarries : Prop :=
  ∀ (r : BitVec 16) (b : Byte),
    crcByte r b = BitVec.ofNat 16
      ((fun x : Nat => (if x.testBit 15 then (x <<< 1) + 0xFFFFEFDF else x <<< 1) &&& 0xFFFF)^[8]
        (r.toNat ^^^ (b.toNat <<< 8))) ∧
    crcByte r b = BitVec.ofNat 16
      ((fun x : Nat => if x.testBit 15 then (x <<< 1) + 0xFFFFEFDF else x <<< 1)^[8] (r.toNat ^^^ (b.toNat <<< 8)))

/-- R155, R156, R157: the three commands on the cipher register, each returning what it wrote. -/
def Obligations.CrcRegisterCommands : Prop :=
  ∀ s : State,
    exec .crcinit s = .next ({ s with crc := 0xFFFF }.ok 0xFFFF) ∧
    (∀ b : Byte, exec (.crcupd b) s = .next ({ s with crc := crcByte s.crc b }.ok ((crcByte s.crc b).setWidth 32))) ∧
    exec .crcfin s = .next ({ s with key := ~~~s.crc }.ok ((~~~s.crc).setWidth 32))

/-- R158: `KEYGEN m` completes when the accumulator has `m` whole bytes, and "equals `CRCINIT`, then `CRCUPD Byte(i)` for
each `i`, then `CRCFIN`"; with fewer it fails. -/
def Obligations.KeygenEqualsItsSteps : Prop :=
  ∀ (s : State) (m : Pos),
    (8 * m.toNat ≤ s.ba.length →
      ∃ r : BitVec 16, exec (.keygen m) s = .next ({ s with crc := r, key := ~~~r }.ok ((~~~r).setWidth 32)) ∧
        runCommands (.crcinit :: (List.range m.toNat).map (fun i => .crcupd (byteAt s.ba i)) ++ [.crcfin]) s =
          exec (.keygen m) s) ∧
      (s.ba.length < 8 * m.toNat → exec (.keygen m) s = .next (s.failed .range))

/-- R159, R153: `ENCR` exclusive-ors every byte with keyLo, appends keyHi so treated and keyLo in clear; the alignment is
checked before the capacity. -/
def Obligations.EncrFramesTheStream : Prop :=
  ∀ s : State,
    (s.ba.length % 8 = 0 → s.ba.length + 16 ≤ 2048 →
      ∃ ba', exec .encr s = .next ({ s with ba := ba' }.ok (BitVec.ofNat 32 (s.ba.length + 16))) ∧
        ba'.length = s.ba.length + 16 ∧
        (∀ i < s.ba.length / 8, byteAt ba' i = byteAt s.ba i ^^^ s.key.extractLsb' 0 8) ∧
        byteAt ba' (s.ba.length / 8) = s.key.extractLsb' 8 8 ^^^ s.key.extractLsb' 0 8 ∧
        byteAt ba' (s.ba.length / 8 + 1) = s.key.extractLsb' 0 8) ∧
      (s.ba.length % 8 ≠ 0 → exec .encr s = .next (s.failed .align)) ∧
      (s.ba.length % 8 = 0 → 2048 < s.ba.length + 16 → exec .encr s = .next (s.failed .cap))

/-- R160, R154: `DECR` exclusive-ors every whole byte but the last with the last, leaves the last and the trailing bits,
and recovers the key pair; with fewer than two whole bytes it fails. -/
def Obligations.DecrRecoversTheStream : Prop :=
  ∀ s : State,
    let nb := s.ba.length / 8
    (2 ≤ nb →
      ∃ ba', ∃ k : BitVec 16, exec .decr s = .next ({ s with ba := ba', key := k }.ok (k.setWidth 32)) ∧
        ba'.length = s.ba.length ∧
        (∀ i < nb - 1, byteAt ba' i = byteAt s.ba i ^^^ byteAt s.ba (nb - 1)) ∧
        (∀ p, 8 * (nb - 1) ≤ p → bitAt ba' p = bitAt s.ba p) ∧
        k = byteAt ba' (nb - 2) ++ byteAt s.ba (nb - 1)) ∧
      (nb < 2 → exec .decr s = .next (s.failed .range))

/-- R154: `Decrypt(Encrypt(s, k)) = s ++ keyHi ++ keyLo` and `key' = k`, in commands: `DECR` after `ENCR` gives the stream
back with the two key bytes behind it, and returns the key. -/
def Obligations.DecrUndoesEncr : Prop :=
  ∀ s : State, s.ba.length % 8 = 0 → s.ba.length + 16 ≤ 2048 →
    runCommands [.encr, .decr] s =
      .next ({ s with ba := s.ba ++ bitsOfReg (s.key.extractLsb' 8 8) ++ bitsOfReg (s.key.extractLsb' 0 8) }.ok
        (s.key.setWidth 32))

/-! ### The regrouper and the password buffer -/

/-- R171, R172: what `Regroup` puts at every index: the sum modulo 64 of the nine groups before it where `i mod 10 = 9`,
and the data groups in order elsewhere. -/
def Obligations.RegroupInterleavesLineSums : Prop :=
  ∀ ba : List Bool,
    let nd := (ba.length + 5) / 6
    (regroup ba).length = nd + nd / 9 ∧
    ∀ i < nd + nd / 9,
      (i % 10 = 9 → (regroup ba)[i]? = some (((List.range 9).map fun k => groupAt ba (9 * (i / 10) + k)).sum)) ∧
      (i % 10 ≠ 9 → (regroup ba)[i]? = some (groupAt ba (i - i / 10)))

/-- R177: `REGRP` writes the groups of the accumulator from index 0 on, sets `CR.PWLEN` and returns their number, when
they fit; else it fails. Entries beyond keep their values. -/
def Obligations.RegrpWritesTheGroups : Prop :=
  ∀ s : State, s.pw.wf = true →
    let nd := (s.ba.length + 5) / 6
    (s.ba.length ≤ 1404 →
      ∃ pw', exec .regrp s =
          .next ({ s with pw := pw', pwlen := BitVec.ofNat 9 (nd + nd / 9) }.ok (BitVec.ofNat 32 (nd + nd / 9))) ∧
        (∀ i, ∀ g, (regroup s.ba)[i]? = some g → pw'.read i = g.setWidth 8) ∧
        ∀ i, nd + nd / 9 ≤ i → pw'.read i = s.pw.read i) ∧
      (1404 < s.ba.length → exec .regrp s = .next (s.failed .cap))

/-- R178, R173: `UNGRP` rebuilds the accumulator from the data symbols, six bits each, ignoring the value of every 10th;
a length beyond the buffer and then an entry outside the domain are refused. -/
def Obligations.UngrpRebuildsTheStream : Prop :=
  ∀ s : State,
    let n := s.pwlen.toNat
    (n ≤ 260 → s.InDomain →
      ∃ ba', exec .ungrp s = .next ({ s with ba := ba' }.ok (BitVec.ofNat 32 (6 * (n - n / 10)))) ∧
        ba'.length = 6 * (n - n / 10) ∧
        ∀ j < n - n / 10, (groupAt ba' j).toNat = (s.pw.read (j + j / 9)).toNat) ∧
      (260 < n → exec .ungrp s = .next (s.failed .range)) ∧
      (n ≤ 260 → ¬ s.InDomain → exec .ungrp s = .next (s.failed .symbol))

/-- R174: `Ungroup` undoes `Regroup` up to the zero tail; the other way round the data groups stay, and the whole is the
same exactly when the checksum groups were correct. -/
def Obligations.UngroupUndoesRegroup : Prop :=
  (∀ ba : List Bool, ungroup (regroup ba) = ba ++ List.replicate (6 * ((ba.length + 5) / 6) - ba.length) false) ∧
  ∀ gs : List Group, gs.length = 16 ∨ gs.length = 61 ∨ gs.length = 260 →
    (regroup (ungroup gs)).length = gs.length ∧
    (∀ i, i % 10 ≠ 9 → (regroup (ungroup gs))[i]? = gs[i]?) ∧
    (regroup (ungroup gs) = gs ↔
      ∀ i < gs.length, i % 10 = 9 → gs[i]? = some (((gs.drop (i - 9)).take 9).sum))

/-- R179, R180: `SCRAM` adds to every declared symbol its index modulo 64, `UNSCR` subtracts it; both leave the other
entries alone, and are refused for a length beyond the buffer and then for a symbol outside the domain. -/
def Obligations.ScramAndUnscrShiftByTheIndex : Prop :=
  ∀ s : State, s.pw.wf = true →
    let n := s.pwlen.toNat
    (n ≤ 260 → s.InDomain →
      ∃ pw' pw'', exec .scram s = .next ({ s with pw := pw' }.ok (BitVec.ofNat 32 n)) ∧
        exec .unscr s = .next ({ s with pw := pw'' }.ok (BitVec.ofNat 32 n)) ∧
        ∀ i, (pw'.read i).toNat = (if i < n then ((s.pw.read i).toNat + i) % 64 else (s.pw.read i).toNat) ∧
          (pw''.read i).toNat = (if i < n then ((s.pw.read i).toNat + 64 - i % 64) % 64 else (s.pw.read i).toNat)) ∧
      (260 < n → exec .scram s = .next (s.failed .range) ∧ exec .unscr s = .next (s.failed .range)) ∧
      (n ≤ 260 → ¬ s.InDomain → exec .scram s = .next (s.failed .symbol) ∧ exec .unscr s = .next (s.failed .symbol))

/-- R176: `UNSCR` after `SCRAM`, and `SCRAM` after `UNSCR`, restore the buffer. -/
def Obligations.ScramAndUnscrUndoEachOther : Prop :=
  ∀ s : State, s.pw.wf = true → s.pwlen.toNat ≤ 260 → s.InDomain →
    runCommands [.scram, .unscr] s = .next (s.ok (BitVec.ofNat 32 s.pwlen.toNat)) ∧
    runCommands [.unscr, .scram] s = .next (s.ok (BitVec.ofNat 32 s.pwlen.toNat))

/-- R181, R182, R183: writing an entry, reading an entry, declaring the length, each with its bound. -/
def Obligations.PasswordBufferCommands : Prop :=
  ∀ s : State, s.pw.wf = true →
    (∀ (x : Pos) (b : Byte), x.toNat < 260 →
      ∃ pw', exec (.pwwr x b) s = .next ({ s with pw := pw' }.ok 0) ∧
        ∀ i, pw'.read i = if i = x.toNat then b else s.pw.read i) ∧
    (∀ (x : Pos) (b : Byte), 260 ≤ x.toNat → exec (.pwwr x b) s = .next (s.failed .range)) ∧
    (∀ x : Pos, x.toNat < 260 → exec (.pwrd x) s = .next (s.ok (BitVec.ofNat 32 (s.pw.read x.toNat).toNat))) ∧
    (∀ x : Pos, 260 ≤ x.toNat → exec (.pwrd x) s = .next (s.failed .range)) ∧
    (∀ n : Pos, n.toNat ≤ 511 → exec (.pwlen n) s = .next ({ s with pwlen := BitVec.ofNat 9 n.toNat }.ok 0)) ∧
    (∀ n : Pos, 511 < n.toNat → exec (.pwlen n) s = .next (s.failed .range))

/-- R184, R195, R198, R222, R223: `PWCHK`, `DECODE` and `CONVERT` make the two input checks in their order, the length
first; `PWCHK` returns the grade of the length. -/
def Obligations.InputChecksLengthThenSymbols : Prop :=
  ∀ s : State,
    (∀ g : Grade, s.HoldsPassword g → exec .pwchk s = .next (s.ok (g.code.setWidth 32))) ∧
    ∀ i : Instr, (i = .pwchk ∨ i = .decode ∨ ∃ t : GradeCode, t ≠ 0 ∧ i = .convert t) →
      (s.pwlen.toNat ≠ 16 → s.pwlen.toNat ≠ 61 → s.pwlen.toNat ≠ 260 → exec i s = .next (s.failed .length)) ∧
      (s.pwlen.toNat = 16 ∨ s.pwlen.toNat = 61 ∨ s.pwlen.toNat = 260 → ¬ s.InDomain →
        exec i s = .next (s.failed .symbol))

/-! ### The pipelines -/

/-- R192: `ENCODE g` completes in every state with a canonical buffer, and its effect equals the sequence `PACK g;
KEYGEN P(g); ENCR; REGRP; SCRAM` followed by setting `CR.GRADE`. -/
def Obligations.EncodeEqualsItsSteps : Prop :=
  ∀ (s : State) (g : Grade), s.pw.wf = true →
    ∃ t, runCommands [.pack g.code, .keygen (BitVec.ofNat 11 g.payloadBytes), .encr, .regrp, .scram] s = .next t ∧
      exec (.encode g.code) s = .next ({ t with grade := g.code }.ok (BitVec.ofNat 32 g.passwordLength))

/-- R199, R200: the password of every SaveState has the length of its grade and lies in the domain; `SS` and the entries
beyond the length are unchanged. -/
def Obligations.EncodedPasswordLengthAndDomain : Prop :=
  ∀ (s : State) (g : Grade), s.pw.wf = true →
    ∃ t, exec (.encode g.code) s = .next t ∧ t.pwlen.toNat = g.passwordLength ∧
      (∀ i < g.passwordLength, (t.pw.read i).toNat ≤ 0x3F) ∧
      (∀ i, g.passwordLength ≤ i → t.pw.read i = s.pw.read i) ∧
      t.ss = s.ss ∧ t.cfg = s.cfg ∧ t.host = s.host

/-- R194: `DECODE` completes on every password that passes its checks, and its effect equals the sequence `UNSCR; UNGRP;
DECR; UNPACK g; SCRAM` followed by setting `CR.GRADE`; the buffer, its length and `CR.CRC` are unchanged. -/
def Obligations.DecodeEqualsItsSteps : Prop :=
  ∀ (s : State) (g : Grade), s.pw.wf = true → s.HoldsPassword g →
    ∃ t, runCommands [.unscr, .ungrp, .decr, .unpack g.code, .scram] s = .next t ∧
      exec .decode s = .next ({ t with grade := g.code }.ok (g.code.setWidth 32)) ∧
      t.pw = s.pw ∧ t.pwlen = s.pwlen ∧ t.crc = s.crc

/-- R201: for every SaveState and every grade, decoding what was encoded gives the SaveState's projection to the grade. At
Bronze and Silver the item table of the projection is built as log 6 says, R139 with the condition of D26. -/
def Obligations.DecodeOfEncodeIsReconstruct : Prop :=
  ∀ (s : State) (g : Grade), s.pw.wf = true →
    ∃ t, runCommands [.encode g.code, .decode] s = .next t ∧ t.ss = reconstruct s.cfg s.ss g ∧
      t.grade = g.code ∧ t.rsp = some ⟨.ok, g.code.setWidth 32⟩

/-- R145: at Gold the projection is the SaveState itself when no quantity stands outside the lowest slot of a stackable
id. -/
def Obligations.ReconstructAtGoldIsIdentity : Prop :=
  ∀ (cfg : Params) (ss : SaveState),
    (∀ c : Fin 4, ∀ s : Fin 15, ss.item[c][s].qty ≠ 0 →
      ss.item[c][s].id ∈ cfg.stack.toList ∧ ∀ s' < s, ss.item[c][s'].id ≠ ss.item[c][s].id) →
    reconstruct cfg ss .gold = ss

/-- R205: converting a password to its own grade leaves everything but `CR.GRADE` as it was. -/
def Obligations.ConvertToSameGradeIsNoOp : Prop :=
  ∀ (s : State) (g : Grade), s.HoldsPassword g →
    exec (.convert g.code) s = .next ({ s with grade := g.code }.ok (BitVec.ofNat 32 g.passwordLength))

/-- R206, R224: converting to a higher grade fails for every content: with `ERR_SYMBOL` if a symbol is out of domain, else
with `ERR_GRADE`; and nothing is written. -/
def Obligations.ConvertUpwardsFails : Prop :=
  ∀ (s : State) (source target : Grade), s.pwlen.toNat = source.passwordLength → source.code.toNat < target.code.toNat →
    (s.InDomain → exec (.convert target.code) s = .next (s.failed .grade)) ∧
    (¬ s.InDomain → exec (.convert target.code) s = .next (s.failed .symbol))

/-- R198: converting to a lower grade does what `DECODE` does, then what `ENCODE` does. -/
def Obligations.ConvertDownwardsDecodesThenEncodes : Prop :=
  ∀ (s : State) (source target : Grade), s.pw.wf = true → s.HoldsPassword source →
    target.code.toNat < source.code.toNat →
    ∃ t, exec (.convert target.code) s = .next t ∧ runCommands [.decode, .encode target.code] s = .next t ∧
      t.rsp = some ⟨.ok, BitVec.ofNat 32 target.passwordLength⟩

/-- R203: downgrading Gold to Silver to Bronze gives the same password as downgrading Gold to Bronze, when the parameters
meet their constraints. -/
def Obligations.DowngradeInTwoStepsIsDowngradeInOne : Prop :=
  ∀ s : State, s.pw.wf = true → s.cfg.Valid → s.cfg.RoomFor s.cfg.defItemsSilver → s.HoldsPassword .gold →
    ∃ t u, runCommands [.convert Grade.silver.code, .convert Grade.bronze.code] s = .next t ∧
      exec (.convert Grade.bronze.code) s = .next u ∧
      t.rsp = some ⟨.ok, 16⟩ ∧ u.rsp = some ⟨.ok, 16⟩ ∧ t.pwlen = u.pwlen ∧
      ∀ i < 16, t.pw.read i = u.pw.read i

/-- R204: what `ENCODE` gives depends on `SS`, the grade and the configuration alone, what `DECODE` gives on the declared
symbols and the configuration alone, and likewise `CONVERT`. -/
def Obligations.PipelinesIgnoreEarlierCommands : Prop :=
  ∀ s s' : State, s.pw.wf = true → s'.pw.wf = true → s.cfg = s'.cfg →
    (s.ss = s'.ss → ∀ g : GradeCode, ∃ t t', exec (.encode g) s = .next t ∧ exec (.encode g) s' = .next t' ∧
      t.rsp = t'.rsp ∧
      (g ≠ 0 → t.pwlen = t'.pwlen ∧ t.grade = t'.grade ∧ t.key = t'.key ∧ t.crc = t'.crc ∧ t.ba = t'.ba ∧
        ∀ i < t.pwlen.toNat, t.pw.read i = t'.pw.read i)) ∧
    (s.pwlen = s'.pwlen → (∀ i < s.pwlen.toNat, s.pw.read i = s'.pw.read i) →
      (∃ t t', exec .decode s = .next t ∧ exec .decode s' = .next t' ∧ t.rsp = t'.rsp ∧
        ((∃ d, t.rsp = some ⟨.ok, d⟩) → t.ss = t'.ss ∧ t.grade = t'.grade ∧ t.key = t'.key ∧ t.ba = t'.ba)) ∧
      ∀ g : GradeCode, ∃ t t', exec (.convert g) s = .next t ∧ exec (.convert g) s' = .next t' ∧ t.rsp = t'.rsp ∧
        ((∃ d, t.rsp = some ⟨.ok, d⟩) → t.pwlen = t'.pwlen ∧ t.grade = t'.grade ∧
          ∀ i < t.pwlen.toNat, t.pw.read i = t'.pw.read i))
end

