-- ==== Sys2Proof/Laws/Bits.lean ====
section
/-! SUPPORT. The stream: lengths, single bits, and values most significant bit first. -/

set_option autoImplicit false

namespace Sys2Proof.Machine

/-! ### Lengths -/

@[simp] theorem length_bitsOf (n v : Nat) : (bitsOf n v).length = n := by
  induction n with
  | zero => rfl
  | succ n ih => simp [bitsOf, ih]

@[simp] theorem length_bitsOfReg {w : Nat} (v : BitVec w) : (bitsOfReg v).length = w := length_bitsOf _ _

@[simp] theorem length_takeBits (n : Nat) (l : List Bool) : (takeBits n l).length = n := by
  induction n generalizing l with
  | zero => rfl
  | succ n ih => cases l <;> simp [takeBits, ih]

@[simp] theorem length_readBits (ba : List Bool) (addr n : Nat) : (readBits ba addr n).length = n := by simp [readBits]

@[simp] theorem length_overwrite (ba : List Bool) (p : Nat) (vs : List Bool) : (overwrite ba p vs).length = ba.length := by
  induction ba generalizing p vs with
  | nil => rfl
  | cons b bs ih => cases p <;> cases vs <;> simp [overwrite, ih]

@[simp] theorem length_memWrite (ba : List Bool) (addr n v : Nat) : (memWrite ba addr n v).length = ba.length := by
  simp [memWrite]

@[simp] theorem length_xorBytes (lo : Byte) (m : Nat) (ba : List Bool) : (xorBytes lo m ba).length = ba.length := by
  simp [xorBytes]

@[simp] theorem length_decrypt (ba : List Bool) : (decrypt ba).length = ba.length := by simp [decrypt]

@[simp] theorem length_encrypt (ba : List Bool) (k : BitVec 16) : (encrypt ba k).length = ba.length + 16 := by
  simp [encrypt]

/-! ### Single bits -/

/-- Inside the stream the cell, beyond it 0 (R101). -/
theorem bitAt_eq (ba : List Bool) (i : Nat) : bitAt ba i = if h : i < ba.length then ba[i] else false := by
  unfold bitAt
  split
  · rename_i h; simp [List.getD_eq_getElem?_getD, h]
  · rename_i h; simp [List.getD_eq_getElem?_getD, List.getElem?_eq_none (Nat.le_of_not_lt h)]

/-- Reading at or beyond the current length gives 0 (R101, R254). -/
theorem bitAt_of_le {ba : List Bool} {i : Nat} (h : ba.length ≤ i) : bitAt ba i = false := by
  rw [bitAt_eq, dif_neg (by omega)]

@[simp] theorem bitAt_nil (i : Nat) : bitAt [] i = false := by simp [bitAt]

@[simp] theorem bitAt_cons_zero (b : Bool) (bs : List Bool) : bitAt (b :: bs) 0 = b := rfl

@[simp] theorem bitAt_cons_succ (b : Bool) (bs : List Bool) (i : Nat) : bitAt (b :: bs) (i + 1) = bitAt bs i := rfl

theorem bitAt_append (l l' : List Bool) (i : Nat) :
    bitAt (l ++ l') i = if i < l.length then bitAt l i else bitAt l' (i - l.length) := by
  induction l generalizing i with
  | nil => simp
  | cons b bs ih => cases i <;> simp [ih]

theorem bitAt_bitsOf (n v i : Nat) : bitAt (bitsOf n v) i = (decide (i < n) && v.testBit (n - 1 - i)) := by
  induction n generalizing i with
  | zero => simp [bitsOf]
  | succ n ih =>
    cases i with
    | zero => simp [bitsOf]
    | succ i => simp [bitsOf, ih, show n - 1 - i = n - (i + 1) by omega]

theorem bitAt_takeBits (n : Nat) (l : List Bool) (i : Nat) : bitAt (takeBits n l) i = (decide (i < n) && bitAt l i) := by
  induction n generalizing l i with
  | zero => simp [takeBits]
  | succ n ih => cases l <;> cases i <;> simp [takeBits, ih]

theorem bitAt_drop (l : List Bool) (a i : Nat) : bitAt (l.drop a) i = bitAt l (a + i) := by
  simp [bitAt, List.getD_eq_getElem?_getD, List.getElem?_drop]

/-- A range read gives the bits of the range (R101, R102). -/
theorem bitAt_readBits (ba : List Bool) (addr n i : Nat) :
    bitAt (readBits ba addr n) i = (decide (i < n) && bitAt ba (addr + i)) := by
  rw [readBits, bitAt_takeBits, bitAt_drop]

/-- Overwriting changes the cells of its range that exist, and no other (R106). -/
theorem bitAt_overwrite (ba : List Bool) (p : Nat) (vs : List Bool) (i : Nat) :
    bitAt (overwrite ba p vs) i =
      if p ≤ i ∧ i < p + vs.length ∧ i < ba.length then bitAt vs (i - p) else bitAt ba i := by
  induction ba generalizing p vs i with
  | nil => simp [overwrite]
  | cons b bs ih =>
    cases p with
    | zero =>
      cases vs with
      | nil => simp [overwrite]
      | cons v vs => cases i <;> simp [overwrite, ih]
    | succ p => cases i <;> simp [overwrite, ih, show ∀ k, k + 1 < p + 1 + vs.length ↔ k < p + vs.length by omega]

/-- The byte-wise exclusive or, bit by bit (R52, R153). -/
theorem bitAt_xorBytes (lo : Byte) (m : Nat) (ba : List Bool) (i : Nat) :
    bitAt (xorBytes lo m ba) i =
      if i < 8 * m ∧ i < ba.length then bitAt ba i != lo.getLsbD (7 - i % 8) else bitAt ba i := by
  by_cases h : i < ba.length
  · simp only [bitAt_eq, length_xorBytes, h, and_true, dif_pos]
    simp [xorBytes]
  · rw [bitAt_of_le (by simpa using h), if_neg (by omega), bitAt_of_le (by simpa using h)]

/-- Streams of one length with the same bits are equal. -/
theorem stream_ext {l l' : List Bool} (hlen : l.length = l'.length) (h : ∀ i < l.length, bitAt l i = bitAt l' i) : l = l' := by
  refine List.ext_getElem hlen fun i h1 h2 => ?_
  simpa [bitAt_eq, h1, h2] using h i h1

/-! ### Values -/

theorem valueOf_snoc (l : List Bool) (b : Bool) : valueOf (l ++ [b]) = 2 * valueOf l + b.toNat := by simp [valueOf]

theorem valueOf_append (l l' : List Bool) : valueOf (l ++ l') = valueOf l * 2 ^ l'.length + valueOf l' := by
  induction l' using List.reverseRecOn generalizing l with
  | nil => simp [valueOf]
  | append_singleton l' b ih =>
    rw [← List.append_assoc, valueOf_snoc, ih, valueOf_snoc, List.length_append]
    simp [pow_succ]; ring

theorem valueOf_cons (b : Bool) (l : List Bool) : valueOf (b :: l) = b.toNat * 2 ^ l.length + valueOf l := by
  simpa [valueOf] using valueOf_append [b] l

theorem valueOf_lt (l : List Bool) : valueOf l < 2 ^ l.length := by
  induction l with
  | nil => simp [valueOf]
  | cons b l ih => rw [valueOf_cons]; cases b <;> simp [pow_succ] <;> omega

/-- Bit `k` of the value is the bit `k` from the end: most significant first (R51). -/
theorem testBit_valueOf (l : List Bool) (k : Nat) :
    (valueOf l).testBit k = (decide (k < l.length) && bitAt l (l.length - 1 - k)) := by
  induction l using List.reverseRecOn generalizing k with
  | nil => simp [valueOf]
  | append_singleton l b ih =>
    rw [valueOf_snoc]
    cases k with
    | zero => simp [bitAt_append]; cases b <;> simp
    | succ k =>
      have hdiv : (2 * valueOf l + b.toNat) / 2 = valueOf l := by cases b <;> simp; omega
      rw [Nat.testBit_succ, hdiv, ih]
      by_cases hk : k < l.length
      · simp [hk, bitAt_append, show l.length - (k + 1) < l.length by omega, show l.length - 1 - k = l.length - (k + 1) by omega]
      · simp [hk]

/-- Reading a pushed field gives it back modulo its width (R51, R108). -/
theorem valueOf_bitsOf (n v : Nat) : valueOf (bitsOf n v) = v % 2 ^ n := by
  refine Nat.eq_of_testBit_eq fun k => ?_
  rw [testBit_valueOf, Nat.testBit_mod_two_pow, bitAt_bitsOf, length_bitsOf]
  by_cases hk : k < n
  · simp [hk, show n - 1 - k < n by omega, show n - 1 - (n - 1 - k) = k by omega]
  · simp [hk]

/-- A bit sequence is the bits of its value. -/
theorem bitsOf_valueOf (l : List Bool) : bitsOf l.length (valueOf l) = l := by
  refine stream_ext (by simp) fun i hi => ?_
  rw [length_bitsOf] at hi
  rw [bitAt_bitsOf, testBit_valueOf]
  simp [hi, show l.length - 1 - i < l.length by omega, show l.length - 1 - (l.length - 1 - i) = i by omega]

/-- A range read, bit by bit (R102). -/
theorem testBit_memRead (ba : List Bool) (addr n k : Nat) :
    (memRead ba addr n).testBit k = (decide (k < n) && bitAt ba (addr + (n - 1 - k))) := by
  rw [memRead, testBit_valueOf, length_readBits, bitAt_readBits]
  by_cases hk : k < n
  · simp [hk, show n - 1 - k < n by omega]
  · simp [hk]

theorem memRead_lt (ba : List Bool) (addr n : Nat) : memRead ba addr n < 2 ^ n :=
  (valueOf_lt (readBits ba addr n)).trans_eq (by simp)

/-- A register read from the stream, bit by bit. -/
theorem getLsbD_memReadReg (ba : List Bool) (addr w k : Nat) :
    (memReadReg ba addr w).getLsbD k = (decide (k < w) && bitAt ba (addr + (w - 1 - k))) := by
  rw [memReadReg, BitVec.getLsbD_ofNat, testBit_memRead]
  simp

/-- Range reads only look at their range. -/
theorem memRead_congr {ba ba' : List Bool} {addr addr' n : Nat} (h : ∀ k < n, bitAt ba (addr + k) = bitAt ba' (addr' + k)) :
    memRead ba addr n = memRead ba' addr' n := by
  refine Nat.eq_of_testBit_eq fun k => ?_
  rw [testBit_memRead, testBit_memRead]
  by_cases hk : k < n
  · rw [h _ (by omega)]
  · simp [hk]

end Sys2Proof.Machine
end

