-- ==== Sys2Proof/Laws/Memory.lean ====
section
/-! SUPPORT. The password buffer: reads after writes, and every operation keeps the canonical form. -/

set_option autoImplicit false

namespace Sys2Proof.Machine

/-- The canonical form, unfolded once. -/
theorem Memory.wf_cons {c : Host.Cell} {m : Memory} :
    Memory.wf (c :: m) = true ↔ c.2 ≠ unlistedByte ∧ c.1 < pwCap ∧ (∀ d ∈ m, c.1 < d.1) ∧ Memory.wf m = true := by
  simp [Memory.wf, and_assoc]

@[simp] theorem Memory.wf_nil : Memory.wf [] = true := rfl

@[simp] theorem Memory.read_nil (i : Nat) : Memory.read [] i = unlistedByte := rfl

/-- An index below every listed one reads as the unlisted value. -/
theorem Memory.read_of_lt {m : Memory} {i : Nat} (h : ∀ d ∈ m, i < d.1) : m.read i = unlistedByte := by
  induction m with
  | nil => rfl
  | cons c m ih =>
    have hc := h c (by simp)
    rw [Memory.read, if_neg (by omega)]
    exact ih fun d hd => h d (by simp [hd])

/-- Reading through the head of a canonical list. -/
theorem Memory.read_cons (i : Nat) (b : Byte) (m : Memory) (j : Nat) (h : ∀ d ∈ m, i < d.1) :
    Memory.read (Memory.cons i b m) j = if i = j then b else Memory.read m j := by
  unfold Memory.cons
  split
  · split
    · subst_vars; exact Memory.read_of_lt h
    · rfl
  · rfl

/-- The cells of a written buffer are old cells or the written one. -/
theorem Memory.mem_write {m : Memory} {i : Nat} {b : Byte} {d : Host.Cell} (h : d ∈ m.write i b) : d ∈ m ∨ d.1 = i := by
  induction m with
  | nil =>
    simp only [Memory.write, Memory.cons] at h
    split at h <;> simp_all
  | cons c m ih =>
    simp only [Memory.write, Memory.cons] at h
    split at h
    · split at h <;> simp_all
      rcases h with rfl | h <;> simp_all
    · split at h
      · split at h <;> simp_all
        rcases h with rfl | h <;> simp_all
      · simp only [List.mem_cons] at h ⊢
        rcases h with rfl | h
        · simp
        · rcases ih h with h | h <;> simp [h]

/-- One write: the written index reads as the written byte, every other index as before. -/
theorem Memory.read_write {m : Memory} (hm : m.wf = true) (i : Nat) (b : Byte) (j : Nat) :
    (m.write i b).read j = if i = j then b else m.read j := by
  induction m with
  | nil => simpa [Memory.write] using Memory.read_cons i b [] j (by simp)
  | cons c m ih =>
    obtain ⟨-, -, hlt, hwf⟩ := Memory.wf_cons.1 hm
    rw [Memory.write]
    split
    · rename_i hic
      rw [Memory.read_cons]
      intro d hd
      rcases List.mem_cons.1 hd with rfl | hd
      · exact hic
      · exact hic.trans (hlt d hd)
    · split
      · rename_i _ hic
        subst hic
        rw [Memory.read_cons _ _ _ _ hlt, Memory.read]
        split <;> rfl
      · rw [Memory.read, Memory.read, ih hwf]
        split <;> split <;> first | rfl | omega

/-- One write below `PW_CAP` keeps the canonical form. -/
theorem Memory.wf_write {m : Memory} (hm : m.wf = true) {i : Nat} (hi : i < pwCap) (b : Byte) : (m.write i b).wf = true := by
  have hcons : ∀ (m' : Memory), m'.wf = true → (∀ d ∈ m', i < d.1) → (Memory.cons i b m').wf = true := by
    intro m' h1 h2
    unfold Memory.cons
    split
    · exact h1
    · rename_i hb; exact Memory.wf_cons.2 ⟨hb, hi, h2, h1⟩
  induction m with
  | nil => exact hcons [] rfl (by simp)
  | cons c m ih =>
    obtain ⟨hb, hc, hlt, hwf⟩ := Memory.wf_cons.1 hm
    rw [Memory.write]
    split
    · rename_i hic
      refine hcons _ hm fun d hd => ?_
      rcases List.mem_cons.1 hd with rfl | hd
      · exact hic
      · exact hic.trans (hlt d hd)
    · split
      · rename_i _ hic
        subst hic
        exact hcons _ hwf hlt
      · refine Memory.wf_cons.2 ⟨hb, hc, fun d hd => ?_, ih hwf⟩
        rcases Memory.mem_write hd with hd | hd
        · exact hlt d hd
        · omega

/-- Writing a run of bytes: what each index reads as afterwards, and the canonical form. -/
theorem Memory.writeFrom_spec {m : Memory} (hm : m.wf = true) (i : Nat) (bs : List Byte) (h : i + bs.length ≤ pwCap) :
    (m.writeFrom i bs).wf = true ∧
      ∀ j, (m.writeFrom i bs).read j = if h : i ≤ j ∧ j < i + bs.length then bs[j - i] else m.read j := by
  induction bs generalizing m i with
  | nil =>
    refine ⟨hm, fun j => ?_⟩
    rw [dif_neg (by simp), Memory.writeFrom]
  | cons b bs ih =>
    simp only [List.length_cons] at h
    obtain ⟨h1, h2⟩ := ih (Memory.wf_write hm (by omega : i < pwCap) b) (i + 1) (by omega)
    refine ⟨h1, fun j => ?_⟩
    rw [Memory.writeFrom, h2 j]
    by_cases hj : i + 1 ≤ j ∧ j < i + 1 + bs.length
    · rw [dif_pos hj, dif_pos (by simp only [List.length_cons]; omega)]
      obtain ⟨k, rfl⟩ : ∃ k, j = i + 1 + k := ⟨j - (i + 1), by omega⟩
      simp [show i + 1 + k - i = k + 1 by omega, show i + 1 + k - (i + 1) = k by omega]
    · rw [dif_neg hj, Memory.read_write hm]
      by_cases hij : i = j
      · subst hij; simp
      · rw [if_neg hij, dif_neg (by simp only [List.length_cons]; omega)]

/-- Writing groups from index 0 keeps the canonical form. -/
theorem Memory.wf_writeGroups {m : Memory} (hm : m.wf = true) (gs : List Group) (h : gs.length ≤ pwCap) :
    (m.writeGroups gs).wf = true :=
  (Memory.writeFrom_spec hm 0 _ (by simpa using h)).1

/-- Writing groups from index 0: what each index reads as afterwards. -/
theorem Memory.read_writeGroups {m : Memory} (hm : m.wf = true) (gs : List Group) (h : gs.length ≤ pwCap) (j : Nat) :
    (m.writeGroups gs).read j = if h : j < gs.length then byteOfGroup gs[j] else m.read j := by
  rw [Memory.writeGroups, (Memory.writeFrom_spec hm 0 _ (by simpa using h)).2 j]
  by_cases hj : j < gs.length <;> simp [hj]

/-- Canonical buffers that read alike everywhere are equal. -/
theorem Memory.ext_read {m m' : Memory} (hm : m.wf = true) (hm' : m'.wf = true) (h : ∀ i, m.read i = m'.read i) : m = m' := by
  induction m generalizing m' with
  | nil =>
    cases m' with
    | nil => rfl
    | cons c m' =>
      obtain ⟨hb, -, -, -⟩ := Memory.wf_cons.1 hm'
      exact absurd (by simpa [Memory.read] using (h c.1).symm) hb
  | cons c m ih =>
    obtain ⟨hb, -, hlt, hwf⟩ := Memory.wf_cons.1 hm
    cases m' with
    | nil => exact absurd (by simpa [Memory.read] using h c.1) hb
    | cons c' m' =>
      obtain ⟨hb', -, hlt', hwf'⟩ := Memory.wf_cons.1 hm'
      have h0 := h c.1
      have h0' := h c'.1
      simp only [Memory.read, if_true] at h0 h0'
      have hcc : c.1 = c'.1 := by
        by_contra hne
        rw [if_neg fun e => hne e.symm] at h0
        rw [if_neg hne] at h0'
        rcases Nat.lt_or_gt_of_ne hne with hl | hl
        · exact hb (h0.trans (Memory.read_of_lt fun d hd => hl.trans (hlt' d hd)))
        · exact hb' (h0'.symm.trans (Memory.read_of_lt fun d hd => hl.trans (hlt d hd)))
      rw [if_pos hcc.symm] at h0
      have hc : c = c' := Prod.ext hcc h0
      subst hc
      congr 1
      refine ih hwf hwf' fun i => ?_
      by_cases hi : c.1 = i
      · subst hi; rw [Memory.read_of_lt hlt, Memory.read_of_lt hlt']
      · simpa [Memory.read, hi] using h i

/-- The entries read out are as many as asked for. -/
@[simp] theorem Memory.length_entries (m : Memory) (n : Nat) : (m.entries n).length = n := by simp [Memory.entries]

@[simp] theorem Memory.length_groups (m : Memory) (n : Nat) : (m.groups n).length = n := by simp [Memory.groups]

/-- Entry `i` of the first `n`. -/
@[simp] theorem Memory.getElem_entries (m : Memory) (n i : Nat) (h : i < (m.entries n).length) :
    (m.entries n)[i] = m.read i := by simp [Memory.entries]

/-- A group is in the domain, and reading it back gives it. -/
@[simp] theorem groupOfByte_byteOfGroup (g : Group) : groupOfByte (byteOfGroup g) = g := by
  ext i hi; simp [groupOfByte, byteOfGroup]

end Sys2Proof.Machine
end

