-- ==== Sys2Proof/Laws/State.lean ====
section
/-! SUPPORT. One lemma per field per update of the state: an update writes its own field and no other. -/

set_option autoImplicit false

namespace Sys2Proof.Machine

section
variable (s : State) (x : List Bool)

@[simp] theorem State.setBa_cfg : (s.setBa x).cfg = s.cfg := rfl
@[simp] theorem State.setBa_crc : (s.setBa x).crc = s.crc := rfl
@[simp] theorem State.setBa_key : (s.setBa x).key = s.key := rfl
@[simp] theorem State.setBa_pwlen : (s.setBa x).pwlen = s.pwlen := rfl
@[simp] theorem State.setBa_grade : (s.setBa x).grade = s.grade := rfl
@[simp] theorem State.setBa_ss : (s.setBa x).ss = s.ss := rfl
@[simp] theorem State.setBa_ba : (s.setBa x).ba = x := rfl
@[simp] theorem State.setBa_pw : (s.setBa x).pw = s.pw := rfl
@[simp] theorem State.setBa_host : (s.setBa x).host = s.host := rfl
@[simp] theorem State.setBa_rsp : (s.setBa x).rsp = s.rsp := rfl

end

section
variable (s : State) (x : BitVec 16)

@[simp] theorem State.setCrc_cfg : (s.setCrc x).cfg = s.cfg := rfl
@[simp] theorem State.setCrc_crc : (s.setCrc x).crc = x := rfl
@[simp] theorem State.setCrc_key : (s.setCrc x).key = s.key := rfl
@[simp] theorem State.setCrc_pwlen : (s.setCrc x).pwlen = s.pwlen := rfl
@[simp] theorem State.setCrc_grade : (s.setCrc x).grade = s.grade := rfl
@[simp] theorem State.setCrc_ss : (s.setCrc x).ss = s.ss := rfl
@[simp] theorem State.setCrc_ba : (s.setCrc x).ba = s.ba := rfl
@[simp] theorem State.setCrc_pw : (s.setCrc x).pw = s.pw := rfl
@[simp] theorem State.setCrc_host : (s.setCrc x).host = s.host := rfl
@[simp] theorem State.setCrc_rsp : (s.setCrc x).rsp = s.rsp := rfl

end

section
variable (s : State) (x : BitVec 16)

@[simp] theorem State.setKey_cfg : (s.setKey x).cfg = s.cfg := rfl
@[simp] theorem State.setKey_crc : (s.setKey x).crc = s.crc := rfl
@[simp] theorem State.setKey_key : (s.setKey x).key = x := rfl
@[simp] theorem State.setKey_pwlen : (s.setKey x).pwlen = s.pwlen := rfl
@[simp] theorem State.setKey_grade : (s.setKey x).grade = s.grade := rfl
@[simp] theorem State.setKey_ss : (s.setKey x).ss = s.ss := rfl
@[simp] theorem State.setKey_ba : (s.setKey x).ba = s.ba := rfl
@[simp] theorem State.setKey_pw : (s.setKey x).pw = s.pw := rfl
@[simp] theorem State.setKey_host : (s.setKey x).host = s.host := rfl
@[simp] theorem State.setKey_rsp : (s.setKey x).rsp = s.rsp := rfl

end

section
variable (s : State) (x : BitVec 9)

@[simp] theorem State.setPwlen_cfg : (s.setPwlen x).cfg = s.cfg := rfl
@[simp] theorem State.setPwlen_crc : (s.setPwlen x).crc = s.crc := rfl
@[simp] theorem State.setPwlen_key : (s.setPwlen x).key = s.key := rfl
@[simp] theorem State.setPwlen_pwlen : (s.setPwlen x).pwlen = x := rfl
@[simp] theorem State.setPwlen_grade : (s.setPwlen x).grade = s.grade := rfl
@[simp] theorem State.setPwlen_ss : (s.setPwlen x).ss = s.ss := rfl
@[simp] theorem State.setPwlen_ba : (s.setPwlen x).ba = s.ba := rfl
@[simp] theorem State.setPwlen_pw : (s.setPwlen x).pw = s.pw := rfl
@[simp] theorem State.setPwlen_host : (s.setPwlen x).host = s.host := rfl
@[simp] theorem State.setPwlen_rsp : (s.setPwlen x).rsp = s.rsp := rfl

end

section
variable (s : State) (x : GradeCode)

@[simp] theorem State.setGrade_cfg : (s.setGrade x).cfg = s.cfg := rfl
@[simp] theorem State.setGrade_crc : (s.setGrade x).crc = s.crc := rfl
@[simp] theorem State.setGrade_key : (s.setGrade x).key = s.key := rfl
@[simp] theorem State.setGrade_pwlen : (s.setGrade x).pwlen = s.pwlen := rfl
@[simp] theorem State.setGrade_grade : (s.setGrade x).grade = x := rfl
@[simp] theorem State.setGrade_ss : (s.setGrade x).ss = s.ss := rfl
@[simp] theorem State.setGrade_ba : (s.setGrade x).ba = s.ba := rfl
@[simp] theorem State.setGrade_pw : (s.setGrade x).pw = s.pw := rfl
@[simp] theorem State.setGrade_host : (s.setGrade x).host = s.host := rfl
@[simp] theorem State.setGrade_rsp : (s.setGrade x).rsp = s.rsp := rfl

end

section
variable (s : State) (x : SaveState)

@[simp] theorem State.setSs_cfg : (s.setSs x).cfg = s.cfg := rfl
@[simp] theorem State.setSs_crc : (s.setSs x).crc = s.crc := rfl
@[simp] theorem State.setSs_key : (s.setSs x).key = s.key := rfl
@[simp] theorem State.setSs_pwlen : (s.setSs x).pwlen = s.pwlen := rfl
@[simp] theorem State.setSs_grade : (s.setSs x).grade = s.grade := rfl
@[simp] theorem State.setSs_ss : (s.setSs x).ss = x := rfl
@[simp] theorem State.setSs_ba : (s.setSs x).ba = s.ba := rfl
@[simp] theorem State.setSs_pw : (s.setSs x).pw = s.pw := rfl
@[simp] theorem State.setSs_host : (s.setSs x).host = s.host := rfl
@[simp] theorem State.setSs_rsp : (s.setSs x).rsp = s.rsp := rfl

end

section
variable (s : State) (x : Memory)

@[simp] theorem State.setPw_cfg : (s.setPw x).cfg = s.cfg := rfl
@[simp] theorem State.setPw_crc : (s.setPw x).crc = s.crc := rfl
@[simp] theorem State.setPw_key : (s.setPw x).key = s.key := rfl
@[simp] theorem State.setPw_pwlen : (s.setPw x).pwlen = s.pwlen := rfl
@[simp] theorem State.setPw_grade : (s.setPw x).grade = s.grade := rfl
@[simp] theorem State.setPw_ss : (s.setPw x).ss = s.ss := rfl
@[simp] theorem State.setPw_ba : (s.setPw x).ba = s.ba := rfl
@[simp] theorem State.setPw_pw : (s.setPw x).pw = x := rfl
@[simp] theorem State.setPw_host : (s.setPw x).host = s.host := rfl
@[simp] theorem State.setPw_rsp : (s.setPw x).rsp = s.rsp := rfl

end

section
variable (s : State) (x : List HostEvent)

@[simp] theorem State.setHost_cfg : (s.setHost x).cfg = s.cfg := rfl
@[simp] theorem State.setHost_crc : (s.setHost x).crc = s.crc := rfl
@[simp] theorem State.setHost_key : (s.setHost x).key = s.key := rfl
@[simp] theorem State.setHost_pwlen : (s.setHost x).pwlen = s.pwlen := rfl
@[simp] theorem State.setHost_grade : (s.setHost x).grade = s.grade := rfl
@[simp] theorem State.setHost_ss : (s.setHost x).ss = s.ss := rfl
@[simp] theorem State.setHost_ba : (s.setHost x).ba = s.ba := rfl
@[simp] theorem State.setHost_pw : (s.setHost x).pw = s.pw := rfl
@[simp] theorem State.setHost_host : (s.setHost x).host = x := rfl
@[simp] theorem State.setHost_rsp : (s.setHost x).rsp = s.rsp := rfl

end

section
variable (s : State) (x : Option Response)

@[simp] theorem State.setRsp_cfg : (s.setRsp x).cfg = s.cfg := rfl
@[simp] theorem State.setRsp_crc : (s.setRsp x).crc = s.crc := rfl
@[simp] theorem State.setRsp_key : (s.setRsp x).key = s.key := rfl
@[simp] theorem State.setRsp_pwlen : (s.setRsp x).pwlen = s.pwlen := rfl
@[simp] theorem State.setRsp_grade : (s.setRsp x).grade = s.grade := rfl
@[simp] theorem State.setRsp_ss : (s.setRsp x).ss = s.ss := rfl
@[simp] theorem State.setRsp_ba : (s.setRsp x).ba = s.ba := rfl
@[simp] theorem State.setRsp_pw : (s.setRsp x).pw = s.pw := rfl
@[simp] theorem State.setRsp_host : (s.setRsp x).host = s.host := rfl
@[simp] theorem State.setRsp_rsp : (s.setRsp x).rsp = x := rfl

end

section
variable (s : State)

@[simp] theorem State.toReset_cfg : s.toReset.cfg = s.cfg := rfl
@[simp] theorem State.toReset_crc : s.toReset.crc = crcInit := rfl
@[simp] theorem State.toReset_key : s.toReset.key = 0 := rfl
@[simp] theorem State.toReset_pwlen : s.toReset.pwlen = 0 := rfl
@[simp] theorem State.toReset_grade : s.toReset.grade = 0 := rfl
@[simp] theorem State.toReset_ss : s.toReset.ss = SaveState.zero := rfl
@[simp] theorem State.toReset_ba : s.toReset.ba = [] := rfl
@[simp] theorem State.toReset_pw : s.toReset.pw = [] := rfl
@[simp] theorem State.toReset_host : s.toReset.host = s.host := rfl
@[simp] theorem State.toReset_rsp : s.toReset.rsp = none := rfl

end

section
variable (s : State) (g : Grade)

@[simp] theorem State.encoded_cfg : (s.encoded g).cfg = s.cfg := rfl
@[simp] theorem State.encoded_crc : (s.encoded g).crc = payloadCrc (pack s.cfg s.ss g) g := rfl
@[simp] theorem State.encoded_key : (s.encoded g).key = keyOfCrc (payloadCrc (pack s.cfg s.ss g) g) := rfl
@[simp] theorem State.encoded_pwlen : (s.encoded g).pwlen = BitVec.ofNat 9 g.passwordLength := rfl
@[simp] theorem State.encoded_grade : (s.encoded g).grade = g.code := rfl
@[simp] theorem State.encoded_ss : (s.encoded g).ss = s.ss := rfl
@[simp] theorem State.encoded_ba : (s.encoded g).ba = frame (pack s.cfg s.ss g) g := rfl
@[simp] theorem State.encoded_pw : (s.encoded g).pw = s.pw.writeGroups (encodePassword s.cfg s.ss g) := rfl
@[simp] theorem State.encoded_host : (s.encoded g).host = s.host := rfl
@[simp] theorem State.encoded_rsp : (s.encoded g).rsp = s.rsp := rfl

@[simp] theorem State.decoded_cfg : (s.decoded g).cfg = s.cfg := rfl
@[simp] theorem State.decoded_crc : (s.decoded g).crc = s.crc := rfl
@[simp] theorem State.decoded_key : (s.decoded g).key = recoveredKey (ungroup (unscramble s.groups)) := rfl
@[simp] theorem State.decoded_pwlen : (s.decoded g).pwlen = s.pwlen := rfl
@[simp] theorem State.decoded_grade : (s.decoded g).grade = g.code := rfl
@[simp] theorem State.decoded_ss : (s.decoded g).ss = unpack s.cfg g (decrypt (ungroup (unscramble s.groups))) := rfl
@[simp] theorem State.decoded_ba : (s.decoded g).ba = decrypt (ungroup (unscramble s.groups)) := rfl
@[simp] theorem State.decoded_pw : (s.decoded g).pw = s.pw := rfl
@[simp] theorem State.decoded_host : (s.decoded g).host = s.host := rfl
@[simp] theorem State.decoded_rsp : (s.decoded g).rsp = s.rsp := rfl

end

/-! ### How a command ends -/

/-- A command that succeeds answers the state with its response set. -/
theorem State.succeed_eq_next {s t : State} {v : Data} (h : s.succeed v = .next t) : t = s.setRsp (some ⟨.ok, v⟩) := by
  cases h; rfl

/-- A command that fails changes nothing but the response (R226). -/
theorem State.fail_eq_next {s t : State} {e : Status} (h : s.fail e = .next t) : t = s.setRsp (some ⟨e, 0⟩) := by
  cases h; rfl

/-- The response is overwritten, whatever stood there (R23). -/
@[simp] theorem State.setRsp_setRsp (s : State) (r r' : Option Response) : (s.setRsp r).setRsp r' = s.setRsp r' := rfl

@[simp] theorem State.balen_setRsp (s : State) (r : Option Response) : (s.setRsp r).balen = s.balen := rfl

@[simp] theorem State.symbolCount_setRsp (s : State) (r : Option Response) : (s.setRsp r).symbolCount = s.symbolCount := rfl

end Sys2Proof.Machine
end

