-- ==== Sys2Proof/Laws/Commands.lean ====
section
/-! SUPPORT. What each shared operation of the commands can do, said once. -/

set_option autoImplicit false

namespace Sys2Proof.Machine

/-! ### Operands -/

@[simp] theorem gradeOfCode_code (g : Grade) : gradeOfCode g.code = some g := by cases g <;> rfl

/-- Code 0, and no other, names no grade (R76). -/
theorem gradeOfCode_eq_none {g : GradeCode} : gradeOfCode g = none ↔ g = 0 := by
  revert g; decide

/-- A code names the grade whose code it is (R76). -/
theorem gradeOfCode_eq_some {g : GradeCode} {gr : Grade} : gradeOfCode g = some gr ↔ g = gr.code := by
  revert g gr
  intro g gr; cases gr <;> revert g <;> decide

/-- A length names the grade whose password length it is (R185). -/
theorem gradeOfLength_eq_some {n : Nat} {g : Grade} : gradeOfLength n = some g ↔ n = g.passwordLength := by
  unfold gradeOfLength
  split
  · subst_vars; cases g <;> simp [Grade.passwordLength]
  · split
    · subst_vars; cases g <;> simp [Grade.passwordLength]
    · split
      · subst_vars; cases g <;> simp [Grade.passwordLength]
      · cases g <;> simp [Grade.passwordLength] <;> omega

/-- No other length has a grade (R185). -/
theorem gradeOfLength_eq_none {n : Nat} : gradeOfLength n = none ↔ n ≠ 16 ∧ n ≠ 61 ∧ n ≠ 260 := by
  unfold gradeOfLength
  (repeat' split) <;> simp_all

theorem passwordLength_le (g : Grade) : g.passwordLength ≤ pwCap := by cases g <;> decide

/-- Selectors above 0x006, and no others, name no control register (R24). -/
theorem ctrlRegOf_eq_none {sel : Pos} : ctrlRegOf sel = none ↔ crSelectorReserved sel = true := by
  revert sel; decide +kernel

/-- The reserved selectors, and no others, name no SaveState register (R27). -/
theorem saveRegOf_eq_none {sel : Pos} : saveRegOf sel = none ↔ ssSelectorReserved sel = true := by
  revert sel; decide +kernel

/-! ### Appending (R104, R105) -/

/-- All or none: the bits are appended when they fit, and else nothing changes. -/
theorem State.append_eq_next {s t : State} {bits : List Bool} (h : s.append bits = .next t) :
    (baCap < s.balen + bits.length ∧ t = s.setRsp (some ⟨.cap, 0⟩)) ∨
      (s.balen + bits.length ≤ baCap ∧ t = (s.setBa (s.ba ++ bits)).setRsp (some ⟨.ok, 0⟩)) := by
  unfold State.append at h
  split at h
  · exact .inl ⟨‹_›, State.fail_eq_next h⟩
  · exact .inr ⟨by omega, State.succeed_eq_next h⟩

/-! ### The checks on the password buffer (R195, R178) -/

/-- Every declared symbol is in the domain (R223). -/
theorem State.symbolsOk_iff {s : State} : s.symbolsOk = true ↔ ∀ i < s.symbolCount, (s.pw.read i).toNat ≤ 0x3F := by
  simp [State.symbolsOk, Memory.entries, inDomain]

/-- The two checks of `UNGRP`, `SCRAM`, `UNSCR` (D33). -/
theorem State.bufferError_eq_none {s : State} :
    s.bufferError = none ↔ s.symbolCount ≤ pwCap ∧ ∀ i < s.symbolCount, (s.pw.read i).toNat ≤ 0x3F := by
  rw [← State.symbolsOk_iff, State.bufferError]
  by_cases h1 : s.symbolCount > pwCap
  · simp [h1]
  · have h1' : s.symbolCount ≤ pwCap := by omega
    by_cases h2 : s.symbolsOk = true <;> simp [h1, h1', h2]

/-- The two checks of the Decoder, passed (R195). -/
theorem State.passwordGrade_eq_ok {s : State} {g : Grade} :
    s.passwordGrade = .ok g ↔ s.symbolCount = g.passwordLength ∧ ∀ i < s.symbolCount, (s.pw.read i).toNat ≤ 0x3F := by
  rw [← State.symbolsOk_iff, ← gradeOfLength_eq_some, State.passwordGrade]
  cases h : gradeOfLength s.symbolCount with
  | none => simp
  | some g' => by_cases h2 : s.symbolsOk = true <;> simp [h2]

/-- The two checks of the Decoder, failed: the length is the first (R195). -/
theorem State.passwordGrade_eq_error {s : State} {e : Status} (h : s.passwordGrade = .error e) :
    (e = .length ∧ gradeOfLength s.symbolCount = none) ∨
      (e = .symbol ∧ gradeOfLength s.symbolCount ≠ none ∧ ∃ i < s.symbolCount, 0x3F < (s.pw.read i).toNat) := by
  rw [State.passwordGrade] at h
  cases hg : gradeOfLength s.symbolCount with
  | none => simp [hg] at h; exact .inl ⟨h.symm, rfl⟩
  | some g =>
    by_cases h2 : s.symbolsOk = true
    · simp [hg, h2] at h
    · refine .inr ⟨by simpa [hg, h2] using h.symm, by simp, ?_⟩
      by_contra hne
      exact h2 (State.symbolsOk_iff.2 fun i hi => by by_contra h3; exact hne ⟨i, hi, by omega⟩)

/-- A command on the declared symbols: refused by one of the two checks, or its effect. -/
theorem State.onSymbols_eq_next {s t : State} {f : State → State} {v : State → Data} (h : s.onSymbols f v = .next t) :
    (∃ e, s.bufferError = some e ∧ t = s.setRsp (some ⟨e, 0⟩)) ∨
      (s.bufferError = none ∧ t = (f s).setRsp (some ⟨.ok, v (f s)⟩)) := by
  unfold State.onSymbols at h
  split at h
  · exact .inl ⟨_, ‹_›, State.fail_eq_next h⟩
  · exact .inr ⟨‹_›, State.succeed_eq_next h⟩

/-! ### Lengths of the regrouper (R172, R173) -/

@[simp] theorem length_scramble (gs : List Group) : (scramble gs).length = gs.length := by simp [scramble]

@[simp] theorem length_unscramble (gs : List Group) : (unscramble gs).length = gs.length := by simp [unscramble]

@[simp] theorem length_groupsOf (ba : List Bool) : (groupsOf ba).length = groupCount ba := by simp [groupsOf]

/-- Every ninth data group brings one checksum group with it (R171, R172). -/
theorem length_insertChecks (sum : Group) (cnt : Nat) (gs : List Group) (h : cnt < lineLength) :
    (insertChecks sum cnt gs).length = gs.length + (cnt + gs.length) / lineLength := by
  induction gs generalizing sum cnt with
  | nil => simp [insertChecks, Nat.div_eq_of_lt h]
  | cons d ds ih =>
    rw [insertChecks]
    split
    · rename_i hc
      simp only [List.length_cons, ih 0 0 (by decide)]
      simp only [lineLength] at *
      omega
    · rename_i hc
      simp only [List.length_cons, ih _ _ (by omega : cnt + 1 < lineLength)]
      rw [show cnt + 1 + ds.length = cnt + (ds.length + 1) by omega]
      omega

/-- `|Regroup(stream)| = ND + floor(ND / 9)` (R172). -/
theorem length_regroup (ba : List Bool) : (regroup ba).length = groupCount ba + groupCount ba / lineLength := by
  simpa [regroup] using length_insertChecks 0 0 (groupsOf ba) (by decide)

end Sys2Proof.Machine
end

