-- ==== Sys2Proof/Laws/Decode.lean ====
section
/-! SUPPORT. The fields of an assembled word (R70, R83). -/

set_option autoImplicit false

namespace Sys2Proof

section
variable (op : BitVec 8) (n : Count) (g : GradeCode) (a : Pos) (v : Data)

@[simp] theorem fieldOp_assemble : fieldOp (assemble op n g a v) = op := by
  apply BitVec.eq_of_getLsbD_eq; intro k hk
  interval_cases k <;> simp [fieldOp, assemble]

@[simp] theorem fieldN_assemble : fieldN (assemble op n g a v) = n := by
  apply BitVec.eq_of_getLsbD_eq; intro k hk
  interval_cases k <;> simp [fieldN, assemble]

@[simp] theorem fieldG_assemble : fieldG (assemble op n g a v) = g := by
  apply BitVec.eq_of_getLsbD_eq; intro k hk
  interval_cases k <;> simp [fieldG, assemble]

@[simp] theorem fieldA_assemble : fieldA (assemble op n g a v) = a := by
  apply BitVec.eq_of_getLsbD_eq; intro k hk
  interval_cases k <;> simp [fieldA, assemble]

@[simp] theorem fieldV_assemble : fieldV (assemble op n g a v) = v := by
  apply BitVec.eq_of_getLsbD_eq; intro k hk
  interval_cases k <;> simp [fieldV, assemble]

@[simp] theorem fieldV8_assemble : fieldV8 (assemble op n g a v) = v.setWidth 8 := by
  apply BitVec.eq_of_getLsbD_eq; intro k hk
  interval_cases k <;> simp [fieldV8, assemble]

@[simp] theorem fieldB_assemble : fieldB (assemble op n g a v) = v.setWidth 11 := by
  apply BitVec.eq_of_getLsbD_eq; intro k hk
  interval_cases k <;> simp [fieldB, assemble]

end

end Sys2Proof
end

