-- ==== Sys2Proof/Laws/PerInstr.lean ====
section
/-! SUPPORT. One family of facts about the commands as syntax: every command's word matches the row of the table R78 that
its opcode selects, under that row's mask (R71, R79). -/

set_option autoImplicit false

namespace Sys2Proof.Laws

/-- Two words agree under a mask when they agree bit by bit. -/
theorem eq_of_bits {w w' : CmdWord} (h : ∀ k < 64, w.getLsbD k = w'.getLsbD k) : (w == w') = true := by
  simpa using BitVec.eq_of_getLsbD_eq h

/-! One fact per format (R71): a word with nothing outside the format's fields matches under its mask. -/

theorem format_z (op : BitVec 8)  :
    (assemble op 0 0 0 0 &&& Format.mask .z == op.setWidth 64 <<< 56) = true := by
  refine eq_of_bits fun k hk => ?_
  interval_cases k <;> simp [assemble, Format.mask]

theorem format_g (op : BitVec 8) (g : GradeCode) :
    (assemble op 0 g 0 0 &&& Format.mask .g == op.setWidth 64 <<< 56) = true := by
  refine eq_of_bits fun k hk => ?_
  interval_cases k <;> simp [assemble, Format.mask]

theorem format_a (op : BitVec 8) (a : Pos) :
    (assemble op 0 0 a 0 &&& Format.mask .a == op.setWidth 64 <<< 56) = true := by
  refine eq_of_bits fun k hk => ?_
  interval_cases k <;> simp [assemble, Format.mask]

theorem format_v (op : BitVec 8) (v : Data) :
    (assemble op 0 0 0 v &&& Format.mask .v == op.setWidth 64 <<< 56) = true := by
  refine eq_of_bits fun k hk => ?_
  interval_cases k <;> simp [assemble, Format.mask]

theorem format_v8 (op : BitVec 8) (b : Byte) :
    (assemble op 0 0 0 (b.setWidth 32) &&& Format.mask .v8 == op.setWidth 64 <<< 56) = true := by
  refine eq_of_bits fun k hk => ?_
  interval_cases k <;> simp [assemble, Format.mask]

theorem format_av (op : BitVec 8) (a : Pos) (v : Data) :
    (assemble op 0 0 a v &&& Format.mask .av == op.setWidth 64 <<< 56) = true := by
  refine eq_of_bits fun k hk => ?_
  interval_cases k <;> simp [assemble, Format.mask]

theorem format_av8 (op : BitVec 8) (a : Pos) (b : Byte) :
    (assemble op 0 0 a (b.setWidth 32) &&& Format.mask .av8 == op.setWidth 64 <<< 56) = true := by
  refine eq_of_bits fun k hk => ?_
  interval_cases k <;> simp [assemble, Format.mask]

theorem format_nv (op : BitVec 8) (n : Count) (v : Data) :
    (assemble op n 0 0 v &&& Format.mask .nv == op.setWidth 64 <<< 56) = true := by
  refine eq_of_bits fun k hk => ?_
  interval_cases k <;> simp [assemble, Format.mask]

theorem format_nav (op : BitVec 8) (n : Count) (a : Pos) (v : Data) :
    (assemble op n 0 a v &&& Format.mask .nav == op.setWidth 64 <<< 56) = true := by
  refine eq_of_bits fun k hk => ?_
  interval_cases k <;> simp [assemble, Format.mask]

theorem format_ab (op : BitVec 8) (lo hi : Pos) :
    (assemble op 0 0 lo (hi.setWidth 32) &&& Format.mask .ab == op.setWidth 64 <<< 56) = true := by
  refine eq_of_bits fun k hk => ?_
  interval_cases k <;> simp [assemble, Format.mask]

namespace EncodesInItsRow

/-- The word of a command matches the row its opcode selects. -/
def Statement (i : Instr) : Prop :=
  ((opcodeTable.find? fun r => r.op == fieldOp (encode i)).any fun r => r.accepts (encode i)) = true

theorem nop : Statement .nop := by
  simp only [Statement, Sys2Proof.encode, fieldOp_assemble]
  exact format_z 0x00

theorem clr : Statement .clr := by
  simp only [Statement, Sys2Proof.encode, fieldOp_assemble]
  exact format_z 0x01

theorem rdcr (sel : Pos) : Statement (.rdcr sel) := by
  simp only [Statement, Sys2Proof.encode, fieldOp_assemble]
  exact format_a 0x02 sel

theorem baclr : Statement .baclr := by
  simp only [Statement, Sys2Proof.encode, fieldOp_assemble]
  exact format_z 0x10

theorem pushb (v : Data) : Statement (.pushb v) := by
  simp only [Statement, Sys2Proof.encode, fieldOp_assemble]
  exact format_v 0x11 v

theorem pushn (n : Count) (v : Data) : Statement (.pushn n v) := by
  simp only [Statement, Sys2Proof.encode, fieldOp_assemble]
  exact format_nv 0x12 n v

theorem repl (n : Count) (pos : Pos) (v : Data) : Statement (.repl n pos v) := by
  simp only [Statement, Sys2Proof.encode, fieldOp_assemble]
  exact format_nav 0x13 n pos v

theorem subb (lo : Pos) (hi : Pos) : Statement (.subb lo hi) := by
  simp only [Statement, Sys2Proof.encode, fieldOp_assemble]
  exact format_ab 0x14 lo hi

theorem sswr (sel : Pos) (v : Data) : Statement (.sswr sel v) := by
  simp only [Statement, Sys2Proof.encode, fieldOp_assemble]
  exact format_av 0x20 sel v

theorem ssrd (sel : Pos) : Statement (.ssrd sel) := by
  simp only [Statement, Sys2Proof.encode, fieldOp_assemble]
  exact format_a 0x21 sel

theorem pack (g : GradeCode) : Statement (.pack g) := by
  simp only [Statement, Sys2Proof.encode, fieldOp_assemble]
  exact format_g 0x22 g

theorem unpack (g : GradeCode) : Statement (.unpack g) := by
  simp only [Statement, Sys2Proof.encode, fieldOp_assemble]
  exact format_g 0x23 g

theorem crcinit : Statement .crcinit := by
  simp only [Statement, Sys2Proof.encode, fieldOp_assemble]
  exact format_z 0x30

theorem crcupd (b : Byte) : Statement (.crcupd b) := by
  simp only [Statement, Sys2Proof.encode, fieldOp_assemble]
  exact format_v8 0x31 b

theorem crcfin : Statement .crcfin := by
  simp only [Statement, Sys2Proof.encode, fieldOp_assemble]
  exact format_z 0x32

theorem keygen (nbytes : Pos) : Statement (.keygen nbytes) := by
  simp only [Statement, Sys2Proof.encode, fieldOp_assemble]
  exact format_a 0x33 nbytes

theorem encr : Statement .encr := by
  simp only [Statement, Sys2Proof.encode, fieldOp_assemble]
  exact format_z 0x34

theorem decr : Statement .decr := by
  simp only [Statement, Sys2Proof.encode, fieldOp_assemble]
  exact format_z 0x35

theorem regrp : Statement .regrp := by
  simp only [Statement, Sys2Proof.encode, fieldOp_assemble]
  exact format_z 0x40

theorem ungrp : Statement .ungrp := by
  simp only [Statement, Sys2Proof.encode, fieldOp_assemble]
  exact format_z 0x41

theorem scram : Statement .scram := by
  simp only [Statement, Sys2Proof.encode, fieldOp_assemble]
  exact format_z 0x42

theorem unscr : Statement .unscr := by
  simp only [Statement, Sys2Proof.encode, fieldOp_assemble]
  exact format_z 0x43

theorem pwwr (idx : Pos) (b : Byte) : Statement (.pwwr idx b) := by
  simp only [Statement, Sys2Proof.encode, fieldOp_assemble]
  exact format_av8 0x44 idx b

theorem pwrd (idx : Pos) : Statement (.pwrd idx) := by
  simp only [Statement, Sys2Proof.encode, fieldOp_assemble]
  exact format_a 0x45 idx

theorem pwlen (n : Pos) : Statement (.pwlen n) := by
  simp only [Statement, Sys2Proof.encode, fieldOp_assemble]
  exact format_a 0x46 n

theorem pwchk : Statement .pwchk := by
  simp only [Statement, Sys2Proof.encode, fieldOp_assemble]
  exact format_z 0x47

theorem encode (g : GradeCode) : Statement (.encode g) := by
  simp only [Statement, Sys2Proof.encode, fieldOp_assemble]
  exact format_g 0x50 g

theorem decode : Statement .decode := by
  simp only [Statement, Sys2Proof.encode, fieldOp_assemble]
  exact format_z 0x51

theorem convert (t : GradeCode) : Statement (.convert t) := by
  simp only [Statement, Sys2Proof.encode, fieldOp_assemble]
  exact format_g 0x52 t

end EncodesInItsRow

end Sys2Proof.Laws
end

