-- ==== Sys2Proof/Laws/Schema.lean ====
section
/-! SUPPORT. What the operations on the item table can do. -/

set_option autoImplicit false

namespace Sys2Proof.Machine

theorem holdsId_iff (table : ItemTable) (id : ItemId) :
    holdsId table id = true ↔ ∃ c : Fin 4, ∃ s : Fin 15, table[c][s].id = id := by
  simp only [holdsId, itemList, List.any_flatMap, List.any_eq_true, Vector.mem_toList_iff, Vector.mem_iff_getElem, beq_iff_eq]
  constructor
  · rintro ⟨_, ⟨c, hc, rfl⟩, _, ⟨s, hs, rfl⟩, h⟩
    exact ⟨⟨c, hc⟩, ⟨s, hs⟩, h⟩
  · rintro ⟨c, s, h⟩
    exact ⟨_, ⟨c, c.isLt, rfl⟩, _, ⟨s, s.isLt, rfl⟩, h⟩

theorem placeItem_of_held (c : Fin 4) (table : ItemTable) (id : ItemId) (h : holdsId table id = true) :
    placeItem c table id = table := by simp [placeItem, h]

/-- Placing an item leaves the table, or writes one slot of the character, its lowest with id 0, and only an id that no slot
held. -/
theorem placeItem_cases (c : Fin 4) (table : ItemTable) (id : ItemId) :
    placeItem c table id = table ∨
      ∃ s, holdsId table id = false ∧ firstSlot table[c] 0 = some s ∧
        placeItem c table id = table.set c (table[c].set s ⟨id, 0⟩) := by
  unfold placeItem
  split
  · exact .inl rfl
  · next hid =>
    split
    · next s hs => exact .inr ⟨s, by simpa using hid, hs, rfl⟩
    · exact .inl rfl

theorem placeItem_other (c d : Fin 4) (table : ItemTable) (id : ItemId) (h : d ≠ c) :
    (placeItem c table id)[d] = table[d] := by
  have hv : c.val ≠ d.val := fun e => h (Fin.ext e.symm)
  obtain e | ⟨s, -, -, e⟩ := placeItem_cases c table id
  · rw [e]
  · rw [e]; simp [hv]

end Sys2Proof.Machine
end

