-- ==== Sys2Proof/Tests/Slice0.lean ====
section
/-! SUPPORT. The model's own tests. Expected values come from spec/95_test_vectors.md and from the rules' own examples;
each theorem names its vector or rule. The witnesses at the end show states that meet the hypotheses of the statements in
Certificates/Slice0/Obligations.lean, each clause at a boundary of its range. -/

set_option autoImplicit false
-- One theorem at a time: many of them at once ask the checking machine for a thread each.
set_option Elab.async false

open Sys2Proof Sys2Proof.Machine

namespace Sys2Proof.Tests

/-! ### Helpers -/

/-- The test configuration TC1 of spec/95_test_vectors.md, section 1. -/
def tc1 : Params where
  watch := Vector.ofFn fun k => BitVec.ofNat 9 (0x101 + k)
  stack := Vector.ofFn fun k => BitVec.ofNat 9 (0x0B4 + k)
  defStats := Vector.ofFn fun c =>
    ⟨.ofNat _ (100 + c), .ofNat _ (50 + c), .ofNat _ (40 + c), .ofNat _ (30 + c), .ofNat _ (20 + c), .ofNat _ (3 + c)⟩
  defItemsBronze := Vector.ofFn fun c => Vector.ofFn fun s => if s.val = 0 then ⟨.ofNat _ (1 + c), 0⟩ else ⟨0, 0⟩
  defItemsSilver := Vector.ofFn fun c => Vector.ofFn fun s => if s.val = 0 then ⟨.ofNat _ (1 + c), 0⟩ else ⟨0, 0⟩
  defCoinsBronze := 200
  defCoinsSilver := 300
  watchChar := 0

/-- The state after reset of an instance configured as TC1. -/
def s0 : State := { State.reset with cfg := tc1 }

/-- A stream of `n` one bits. -/
def withBits (n : Nat) : State := { s0 with ba := List.replicate n true }

/-- A stream of bytes. -/
def withBytes (bs : List Byte) : State := { s0 with ba := bs.flatMap bitsOfReg }

/-- A declared length, and the buffer filled from index 0. -/
def withSymbols (n : Nat) (bs : List Byte) : State := { s0 with pwlen := BitVec.ofNat 9 n, pw := Memory.writeFrom [] 0 bs }

/-- One entry outside the domain at index `i`. -/
def withBadSymbol (n i : Nat) : State := { s0 with pwlen := BitVec.ofNat 9 n, pw := [(i, 0x40)] }

/-- The response of a command. -/
def response (i : Instr) (s : State) : Option Response :=
  match exec i s with
  | .next t => t.rsp
  | _ => none

/-- The status of a command. -/
def status (i : Instr) (s : State) : Option Status := (response i s).map Response.status

/-- The state after a command. -/
def after (i : Instr) (s : State) : State :=
  match exec i s with
  | .next t => t
  | _ => s

/-- The next state of a command, if it has one. -/
def nextOf (i : Instr) (s : State) : Option State :=
  match exec i s with
  | .next t => some t
  | _ => none

/-- The response to a presented word. -/
def stepResponse (w : Nat) (s : State) : Option Response :=
  match step (s.withFetchWord 64 w) with
  | .next t => t.rsp
  | _ => none

/-- The first `n` bytes of the stream. -/
def bytes (n : Nat) (s : State) : List Byte := bytesOf s.ba n

/-- A response with status `OK`. -/
def okWith (d : Data) : Option Response := some ⟨.ok, d⟩

/-- The SaveState of vector A. -/
def ssA : SaveState :=
  { SaveState.zero with
    level := #v[28, 28, 28, 28]
    comp := #v[45, 15, 110, 79]
    event := #v[false, false, true, false, false, false] }

/-- The SaveState of vector Q1, as far as character 0. -/
def ssQ : SaveState :=
  { SaveState.zero with
    item := SaveState.zero.item.set 0 (((SaveState.zero.item[0].set 0 ⟨0x0B4, 3⟩).set 5 ⟨0x0B4, 7⟩).set 6 ⟨0x0B5, 31⟩) }

/-- The password of vector A. -/
def passwordA : List Byte :=
  [0x1C, 0x24, 0x2C, 0x2E, 0x25, 0x02, 0x1D, 0x39, 0x14, 0x10, 0x10, 0x34, 0x16, 0x3C, 0x02, 0x37]

/-! ### Well-formedness: one ill-formed command for each check of R80, at the edge of its range -/

theorem test_wf_grade_zero : (Instr.encode 0).wf = false ∧ (Instr.pack 0).wf = false ∧ (Instr.unpack 0).wf = false ∧
    (Instr.convert 0).wf = false ∧ (Instr.encode 1).wf = true ∧ (Instr.convert 3).wf = true := by decide

theorem test_wf_count : (Instr.pushn 33 0).wf = false ∧ (Instr.repl 33 0 0).wf = false ∧ (Instr.pushn 32 0).wf = true ∧
    (Instr.repl 32 0 0).wf = true := by decide

theorem test_wf_control_selector : (Instr.rdcr 7).wf = false ∧ (Instr.rdcr 0x7FF).wf = false ∧ (Instr.rdcr 6).wf = true := by
  decide

theorem test_wf_save_selector : ([0x00F, 0x016, 0x017, 0x02E, 0x02F, 0x030, 0x03F, 0x04F, 0x07F, 0x080, 0x7FF].all
    fun a => !(Instr.sswr a 0).wf && !(Instr.ssrd a).wf) = true ∧
    ([0x000, 0x00E, 0x010, 0x015, 0x02D, 0x040, 0x04E, 0x07E].all fun a => (Instr.sswr a 0).wf && (Instr.ssrd a).wf) = true := by
  decide

theorem test_wf_index : (Instr.pwwr 260 0).wf = false ∧ (Instr.pwrd 260).wf = false ∧ (Instr.pwwr 259 0).wf = true ∧
    (Instr.pwrd 259).wf = true := by decide

theorem test_wf_length : (Instr.pwlen 512).wf = false ∧ (Instr.pwlen 511).wf = true := by decide

/-! ### Decoding: one word written out from R70 and R78 for every command -/

theorem test_decode_system : decode 0x0000000000000000 = .ok .nop ∧ decode 0x0100000000000000 = .ok .clr ∧
    decode 0x0200000500000000 = .ok (.rdcr 5) := by decide +kernel

theorem test_decode_accumulator : decode 0x1000000000000000 = .ok .baclr ∧
    decode 0x11000000FFFFFFFF = .ok (.pushb 0xFFFFFFFF) ∧ decode 0x1284000000000000 = .ok (.pushn 33 0) ∧
    decode 0x1308000A000000FF = .ok (.repl 2 10 0xFF) ∧ decode 0x1400000600000011 = .ok (.subb 6 17) := by decide +kernel

theorem test_decode_save_state : decode 0x20000040000020B4 = .ok (.sswr 0x040 0x20B4) ∧
    decode 0x210007FF00000000 = .ok (.ssrd 0x7FF) ∧ decode 0x2201000000000000 = .ok (.pack 1) ∧
    decode 0x2303000000000000 = .ok (.unpack 3) := by decide +kernel

theorem test_decode_cipher : decode 0x3000000000000000 = .ok .crcinit ∧ decode 0x3100000000000012 = .ok (.crcupd 0x12) ∧
    decode 0x3200000000000000 = .ok .crcfin ∧ decode 0x3300000200000000 = .ok (.keygen 2) ∧
    decode 0x3400000000000000 = .ok .encr ∧ decode 0x3500000000000000 = .ok .decr := by decide +kernel

theorem test_decode_regrouper : decode 0x4000000000000000 = .ok .regrp ∧ decode 0x4100000000000000 = .ok .ungrp ∧
    decode 0x4200000000000000 = .ok .scram ∧ decode 0x4300000000000000 = .ok .unscr := by decide +kernel

theorem test_decode_password_buffer : decode 0x4400000F0000003F = .ok (.pwwr 15 0x3F) ∧
    decode 0x4500000F00000000 = .ok (.pwrd 15) ∧ decode 0x4600001000000000 = .ok (.pwlen 16) ∧
    decode 0x4700000000000000 = .ok .pwchk := by decide +kernel

theorem test_decode_pipeline : decode 0x5001000000000000 = .ok (.encode 1) ∧ decode 0x5100000000000000 = .ok .decode ∧
    decode 0x5202000000000000 = .ok (.convert 2) := by decide +kernel

/-- Vectors F1 to F8, F11, F14, F15. -/
theorem test_decode_illegal : ([0x1000000000000001, 0x6000000000000000, 0xFF00000000000000, 0x0300000000000000,
    0x0000000000000001, 0x3100000000000100, 0x5004000000000000, 0x5000800000000000, 0x2201000000000001,
    0x1400000000000800, 0x4600001000000001].all fun w => (decode w).toOption.isNone) = true := by decide +kernel

/-- A full-width selector, a full-width value and no bit of a row above the row's own bits. -/
theorem test_decode_table_word : decodeTableWord 64 0x5003000000000000 = some (.encode 3) ∧
    decodeTableWord 64 0x0300000000000000 = none := by decide +kernel

/-! ### System commands -/

/-- The example of R212, and reset's memory. -/
theorem test_rdcr_after_reset : stepResponse 0x0200000100000000 s0 = okWith 0xFFFF ∧
    stepResponse 0x0200000200000000 s0 = okWith 0 ∧ stepResponse 0x0200000700000000 s0 = some ⟨.illegal, 0⟩ ∧
    Memory.wf State.reset.pw = true := by decide +kernel

/-- R211: CLR wipes the buffer and the stream. -/
theorem test_clr : (after .clr { withSymbols 4 [1, 2, 3, 4] with ba := [true], crc := 0, grade := 2 }).pw = [] ∧
    (after .clr (withBits 9)).ba = [] ∧ (after .clr { s0 with crc := 0 }).crc = 0xFFFF := by decide +kernel

/-- R210, in a state where much is set. -/
theorem test_nop : after .nop (withBits 9) = { withBits 9 with rsp := okWith 0 } := by decide +kernel

/-! ### Bit accumulator -/

/-- A1, A3 and the corner case `PUSHN 4, 0xAB` of R105. -/
theorem test_pushn : (after (.pushn 8 0xA5) s0).ba = [true, false, true, false, false, true, false, true] ∧
    (after (.pushn 4 0xAB) s0).ba = [true, false, true, true] := by decide +kernel

/-- A23, A24. -/
theorem test_pushb : (after (.pushb 2) (withBits 1)).ba = [true, false] ∧
    (after (.pushb 0xFFFFFFFF) (withBits 1)).ba = [true, true] := by decide +kernel

/-- A9, A10 on the cells of A1: 1,0,1,0,0,1,0,1 become 1,0,1,1,1,1,0,1. -/
theorem test_repl : response (.subb 0 7) (after (.repl 4 2 0xF) (withBytes [0xA5])) = okWith 0xBD ∧
    status (.repl 0 8 0) (withBytes [0xA5]) = some .range := by decide +kernel

/-- The examples of R107. -/
theorem test_subb : response (.subb 4 7) (withBytes [0xA5]) = okWith 5 ∧
    response (.subb 6 11) (withBytes [0xA5]) = okWith 0x10 ∧ response (.subb 8 15) (withBytes [0xA5]) = okWith 0 ∧
    response (.subb 5 2) (withBytes [0xA5]) = okWith 0 := by decide +kernel

/-- A26. -/
theorem test_baclr : (after .baclr (withBits 12)).ba = [] := by decide +kernel

/-! ### SaveState and schema -/

/-- G18 to G24. -/
theorem test_sswr_item : (after (.sswr 0x040 0x20B4) s0).ss.item[0][0] = ⟨0x0B4, 4⟩ ∧
    response (.ssrd 0x040) (after (.sswr 0x040 0xF9FF) s0) = okWith 0xF9FF ∧
    status (.sswr 0x040 0x200) s0 = some .width ∧ status (.sswr 0x040 0x10000) s0 = some .width := by decide +kernel

/-- G1, G2, G13, G16: the last stat is selector 0x02D. -/
theorem test_sswr_stat : (after (.sswr 0x02D 1) s0).ss.stat[3].luck = 1 ∧ (after (.sswr 0x011 2047) s0).ss.stat[0].rp = 2047 ∧
    status (.sswr 0x015 256) s0 = some .width ∧ response (.ssrd 0x000) (after (.sswr 0x000 127) s0) = okWith 0x7F := by
  decide +kernel

/-- R143: the payload of vector A. -/
theorem test_pack_bronze : bytes 9 (after (.pack 1) { s0 with ss := ssA }) =
    [0x38, 0x70, 0xE1, 0xCD, 0x9F, 0xB8, 0x7A, 0x20, 0x00] := by decide +kernel

/-- Q1: `Q(0, 0) = 3` at 860, `Q(0, 1) = 31` at 865, and nothing for the second copy. -/
theorem test_pack_gold_quantities : memRead (pack tc1 ssQ .gold) 860 5 = 3 ∧ memRead (pack tc1 ssQ .gold) 865 5 = 31 ∧
    (unpack tc1 .gold (pack tc1 ssQ .gold)).item[0][5] = ⟨0x0B4, 0⟩ := by decide +kernel

/-- G33 backwards. -/
theorem test_unpack_head : (unpack tc1 .bronze (withBytes [0x38, 0x70, 0xE1, 0xCD, 0x9F, 0xB8, 0x7A, 0x20, 0x00]).ba).comp =
    #v[45, 15, 110, 79] := by decide +kernel

/-- G32: the Bronze placeholders on an empty accumulator. -/
theorem test_unpack_placeholders : response (.ssrd 0x021) (after (.unpack 1) s0) = okWith 0x34 ∧
    response (.ssrd 0x00E) (after (.unpack 1) s0) = okWith 200 := by decide +kernel

/-- W1: the watched items stand in slots 1 to 8 of character 0, in the order of the watch-list. -/
theorem test_unpack_bitmap : ((unpack tc1 .bronze (List.replicate 72 true)).item[0].toList.map Item.id).take 10 =
    [0x001, 0x101, 0x102, 0x103, 0x104, 0x105, 0x106, 0x107, 0x108, 0x000] := by decide +kernel

/-- D26: an id that another character already holds is not put in again, and the next one takes the empty slot. -/
theorem test_place_held_item : (applyBitmap tc1 (tc1.defItemsBronze.set 2 (tc1.defItemsBronze[2].set 7 ⟨0x101, 0⟩))
    [0x101, 0x102]).toList.map (fun row => row[1].id) = [0x102, 0, 0, 0] := by decide +kernel

/-! ### Checksum cipher -/

/-- K7: addition with carries, not the exclusive or of a plain CRC (which would give 0xD64E). -/
theorem test_key_k7 : keyOf [0x31, 0x32, 0x33, 0x34, 0x35, 0x36, 0x37, 0x38, 0x39] = 0xF5B7 := by decide +kernel

/-- K2. -/
theorem test_crcupd : response (.crcupd 0) s0 = okWith 0xE010 := by decide +kernel

theorem test_crcinit : (after .crcinit { s0 with crc := 0x1234 }).crc = 0xFFFF := by decide +kernel

/-- R157's example. -/
theorem test_crcfin : response .crcfin { s0 with crc := 0x3693 } = okWith 0xC96C := by decide +kernel

/-- E1. -/
theorem test_keygen : response (.keygen 2) (withBytes [0x12, 0x34]) = okWith 0xC96C ∧
    (after (.keygen 2) (withBytes [0x12, 0x34])).crc = 0x3693 := by decide +kernel

/-- E2. -/
theorem test_encr : bytes 4 (after .encr { withBytes [0x12, 0x34] with key := 0xC96C }) = [0x7E, 0x58, 0xA5, 0x6C] := by
  decide +kernel

/-- E3, and E12: the four trailing bits stay. -/
theorem test_decr : bytes 4 (after .decr (withBytes [0x7E, 0x58, 0xA5, 0x6C])) = [0x12, 0x34, 0xC9, 0x6C] ∧
    (after .decr { s0 with ba := (withBytes [0x7E, 0x58, 0xA5, 0x6C]).ba ++ List.replicate 4 true }).ba.drop 32 =
      List.replicate 4 true := by decide +kernel

/-! ### Regrouper and password buffer -/

/-- R177: 55 one bits give eleven symbols, the tenth the sum of nine 63s modulo 64, the last `bit(54) << 5`. -/
theorem test_regrp : (after .regrp (withBits 55)).pw.entries 12 =
    List.replicate 9 0x3F ++ [0x37, 0x20, 0x00] ∧ (after .regrp (withBits 55)).pwlen = 11 := by decide +kernel

/-- R178: ten symbols give 54 bits, the tenth ignored. -/
theorem test_ungrp : (after .ungrp (withSymbols 10 (List.replicate 9 0x3F ++ [0x01]))).ba = List.replicate 54 true := by
  decide +kernel

/-- R179. -/
theorem test_scram : (after .scram (withSymbols 4 [0x3F, 0x3F, 0x3F, 0x3F])).pw.entries 4 = [0x3F, 0x00, 0x01, 0x02] := by
  decide +kernel

/-- R180, and the line after F28: only entries below the length are examined. -/
theorem test_unscr : (after .unscr (withSymbols 4 [0x3F, 0x00, 0x01, 0x02])).pw.entries 4 = [0x3F, 0x3F, 0x3F, 0x3F] ∧
    response .unscr (withBadSymbol 3 3) = okWith 3 := by decide +kernel

/-- R181, R182: the buffer keeps its canonical form, a written 0 included. -/
theorem test_pwwr : (after (.pwwr 259 0x40) (withSymbols 2 [7, 8])).pw = [(0, 7), (1, 8), (259, 0x40)] ∧
    (after (.pwwr 0 0) (withSymbols 2 [7, 8])).pw = [(1, 8)] := by decide +kernel

theorem test_pwrd : response (.pwrd 1) (withSymbols 0 [7, 8]) = okWith 8 ∧ response (.pwrd 259) s0 = okWith 0 := by decide +kernel

/-- R183. -/
theorem test_pwlen : (after (.pwlen 511) s0).pwlen = 511 ∧ status (.pwlen 512) s0 = some .range := by decide +kernel

/-- R184, F22, F24, F27. -/
theorem test_pwchk : response .pwchk (withSymbols 16 passwordA) = okWith 1 ∧ status .pwchk (withSymbols 17 []) = some .length ∧
    status .pwchk (withBadSymbol 16 3) = some .symbol ∧ status .pwchk (withBadSymbol 17 3) = some .length := by decide +kernel

/-! ### Pipelines -/

/-- Vector A. -/
theorem test_encode_bronze : (after (.encode 1) { s0 with ss := ssA }).pw.entries 16 = passwordA ∧
    (after (.encode 1) { s0 with ss := ssA }).key = 0xF54A := by decide +kernel

/-- Vector A backwards: R194's example. -/
theorem test_decode_bronze : (after .decode (withSymbols 16 passwordA)).ss.comp = #v[45, 15, 110, 79] ∧
    (after .decode (withSymbols 16 passwordA)).key = 0xF54A := by decide +kernel

/-- F10, F25, F30, V4. -/
theorem test_convert : status (.convert 0) (withBadSymbol 17 3) = some .illegal ∧
    status (.convert 3) (withBadSymbol 16 3) = some .symbol ∧ status (.convert 3) (withSymbols 16 passwordA) = some .grade ∧
    response (.convert 1) (withSymbols 16 passwordA) = okWith 16 := by decide +kernel

/-- R221. -/
theorem test_status_codes : [Status.ok, .length, .symbol, .grade, .illegal, .range, .cap, .width, .align].map Status.code =
    [0x00, 0x01, 0x02, 0x03, 0x10, 0x11, 0x12, 0x13, 0x14] := by decide

/-! ### Witnesses: states and operands that meet the hypotheses of the statements -/

theorem witness_StepRunsDecodedCommand :
    { s0 with host := [.command 0x1000000000000000, .reset] }.host = .command 0x1000000000000000 :: [.reset] ∧
      decode 0x1000000000000000 = .ok .baclr := by decide +kernel

theorem witness_IllegalWord :
    { s0 with host := [.command 0x0300000000000000] }.host = .command 0x0300000000000000 :: [] ∧
    (∀ row ∈ opcodeTable, (0x0300000000000000 : CmdWord) &&& row.format.mask ≠ row.op.setWidth 64 <<< 56) ∧
    ∀ row ∈ opcodeTable, (0x0000000000000001 : CmdWord) &&& row.format.mask ≠ row.op.setWidth 64 <<< 56 := by decide +kernel

theorem witness_IdleBlock : State.reset.host = [] := rfl

theorem witness_EncodeOfDecode : decode 0x140007FF000007FF = .ok (.subb 0x7FF 0x7FF) := by decide +kernel

theorem witness_Invariant : { withBits 2048 with pw := [(0, 1), (259, 0xFF)] }.Inv ∧
    stepResponse 0x1100000000000001 (withBits 2047) = okWith 0 := by decide +kernel

/-- Commands that fail, for the statements about a status other than `OK`. -/
theorem witness_failing_commands : response (.pushn 33 0) s0 = some ⟨.range, 0⟩ ∧ response .encr (withBits 12) = some ⟨.align, 0⟩ ∧
    response .decode s0 = some ⟨.length, 0⟩ := by decide +kernel

theorem witness_OperandOutOfRange : (Instr.pushn 33 0).wf = false ∧ (Instr.pwlen 512).wf = false ∧ (Instr.pack 0).wf = false ∧
    (Instr.ssrd 0x00F).wf = false := by decide

theorem witness_Rdcr_reserved : 6 < (7 : Pos).toNat := by decide

theorem witness_Pushb : (withBits 2047).ba.length < 2048 ∧ 2048 ≤ (withBits 2048).ba.length := by decide +kernel

theorem witness_Pushn : ((32 : Count).toNat ≤ 32 ∧ (withBits 2016).ba.length + (32 : Count).toNat ≤ 2048) ∧
    32 < (33 : Count).toNat ∧ (32 : Count).toNat ≤ 32 ∧ 2048 < (withBits 2017).ba.length + (32 : Count).toNat := by decide +kernel

theorem witness_Repl : ((4 : Count).toNat ≤ 32 ∧ (8 : Pos).toNat < (withBits 12).ba.length ∧
      (8 : Pos).toNat + (4 : Count).toNat ≤ (withBits 12).ba.length) ∧ 32 < (33 : Count).toNat ∧
    (withBits 12).ba.length ≤ (12 : Pos).toNat ∧ (withBits 12).ba.length < (9 : Pos).toNat + (4 : Count).toNat := by decide +kernel

theorem witness_Subb : ((0 : Pos).toNat ≤ (31 : Pos).toNat ∧ (31 : Pos).toNat - (0 : Pos).toNat < 32) ∧
    (4 : Pos).toNat < (5 : Pos).toNat ∧ (0 : Pos).toNat + 32 ≤ (32 : Pos).toNat := by decide

theorem witness_AccumulatorLaws : nextOf (.pushn 4 0xAB) (withBits 3) = some ((after (.pushn 4 0xAB) (withBits 3)).ok 0) ∧
    nextOf (.repl 4 0 0xAB) (withBits 4) = some ((after (.repl 4 0 0xAB) (withBits 4)).ok 0) := by decide +kernel

theorem witness_AccumulatorLaws_ranges : ((3 : Nat) ≤ 3 ∧ (3 : Nat) < 4) ∧ ((31 : Count).toNat + (1 : Count).toNat ≤ 32 ∧
    (withBits 2016).ba.length + (31 : Count).toNat + (1 : Count).toNat ≤ 2048) ∧
    (3 : Nat) < (withBits 4).ba.length ∧ (withBits 4).ba.length ≤ 4 := by decide +kernel

theorem witness_Sswr : saveRegOf 0x00F = none ∧ saveRegOf 0x000 = some (.level 0) ∧ saveRegOf 0x007 = some (.comp 3) ∧
    saveRegOf 0x00D = some (.event 5) ∧ saveRegOf 0x00E = some .coins ∧ saveRegOf 0x010 = some (.stat 0 .hp) ∧
    saveRegOf 0x02D = some (.stat 3 .luck) ∧ saveRegOf 0x07E = some (.item 3 14) ∧ (127 : Data).toNat ≤ 127 ∧
    ¬ (128 : Data).toNat ≤ 127 ∧ (0xF9FF : Data) &&& 0xFFFF0600 = 0 ∧ ¬ (0x200 : Data) &&& 0xFFFF0600 = 0 := by decide +kernel

theorem witness_PackedGold : ssQ.item[0][0].id = tc1.stack[0] ∧ (∀ s' < (0 : Fin 15), ssQ.item[0][s'].id ≠ tc1.stack[0]) ∧
    ∀ s : Fin 15, ssQ.item[1][s].id ≠ tc1.stack[0] := by decide +kernel

theorem witness_UnpackGold : tc1.Valid ∧
    (unpack tc1 .gold (pack tc1 ssQ .gold)).item[0][0].id = tc1.stack[0] ∧
    (∃ k' < (5 : Fin 15), (unpack tc1 .gold (pack tc1 ssQ .gold)).item[0][k'].id =
      (unpack tc1 .gold (pack tc1 ssQ .gold)).item[0][5].id) := by decide +kernel

theorem witness_grades_below_gold : Grade.bronze ≠ .gold ∧ Grade.silver ≠ .gold ∧ Grade.silver ≠ .bronze := by decide

/-- The constraints of R9 for both placeholder tables, and a watched id that a table against R9 holds. -/
theorem witness_UnpackPlaceholder : tc1.Valid ∧
    (∀ c : Fin 4, ∀ i : Fin 15, ∀ k : Fin 8, tc1.defItemsBronze[c][i].id ≠ tc1.watch[k]) ∧
    (∀ c : Fin 4, ∀ i : Fin 15, ∀ k : Fin 8, tc1.defItemsSilver[c][i].id ≠ tc1.watch[k]) ∧
    (1 : Fin 4) ≠ tc1.watchChar := by decide +kernel

theorem witness_Keygen : 8 * (2 : Pos).toNat ≤ (withBits 16).ba.length ∧ (withBits 15).ba.length < 8 * (2 : Pos).toNat := by
  decide +kernel

theorem witness_Encr : ((withBits 2032).ba.length % 8 = 0 ∧ (withBits 2032).ba.length + 16 ≤ 2048) ∧
    (withBits 2033).ba.length % 8 ≠ 0 ∧ (withBits 2040).ba.length % 8 = 0 ∧ 2048 < (withBits 2040).ba.length + 16 := by
  decide +kernel

theorem witness_Decr : 2 ≤ (withBits 16).ba.length / 8 ∧ (withBits 15).ba.length / 8 < 2 := by decide +kernel

theorem witness_Regrp : (withBits 1404).pw.wf = true ∧ (withBits 1404).ba.length ≤ 1404 ∧ 1404 < (withBits 1405).ba.length := by
  decide +kernel

theorem witness_symbol_commands : (withSymbols 260 passwordA).pw.wf = true ∧ (withSymbols 260 passwordA).pwlen.toNat ≤ 260 ∧
    (withSymbols 260 passwordA).InDomain ∧ 260 < (withSymbols 261 []).pwlen.toNat ∧
    (withBadSymbol 260 259).pwlen.toNat ≤ 260 ∧ ¬ (withBadSymbol 260 259).InDomain := by decide +kernel

theorem witness_UngroupUndoesRegroup : (List.replicate 16 (1 : Group)).length = 16 ∧ (List.replicate 61 (1 : Group)).length = 61 ∧
    (List.replicate 260 (1 : Group)).length = 260 := by decide +kernel

theorem witness_PasswordBuffer : s0.pw.wf = true ∧ (259 : Pos).toNat < 260 ∧ 260 ≤ (260 : Pos).toNat ∧ (511 : Pos).toNat ≤ 511 ∧
    511 < (512 : Pos).toNat := by decide +kernel

theorem witness_HoldsPassword : (withSymbols 16 passwordA).HoldsPassword .bronze ∧ (withSymbols 61 passwordA).HoldsPassword .silver ∧
    (withSymbols 260 passwordA).HoldsPassword .gold ∧ (withSymbols 260 passwordA).pw.wf = true := by decide +kernel

theorem witness_InputChecks : ((withSymbols 15 []).pwlen.toNat ≠ 16 ∧ (withSymbols 15 []).pwlen.toNat ≠ 61 ∧
      (withSymbols 15 []).pwlen.toNat ≠ 260) ∧ (withBadSymbol 16 15).pwlen.toNat = 16 ∧ ¬ (withBadSymbol 16 15).InDomain ∧
    ¬ (withBadSymbol 61 60).InDomain ∧ ¬ (withBadSymbol 260 259).InDomain := by decide +kernel

theorem witness_ReconstructAtGold : ∀ c : Fin 4, ∀ s : Fin 15,
    ({ ssQ with item := ssQ.item.set 0 (ssQ.item[0].set 5 ⟨0x0B4, 0⟩) } : SaveState).item[c][s].qty ≠ 0 →
      ({ ssQ with item := ssQ.item.set 0 (ssQ.item[0].set 5 ⟨0x0B4, 0⟩) } : SaveState).item[c][s].id ∈ tc1.stack.toList ∧
      ∀ s' < s, ({ ssQ with item := ssQ.item.set 0 (ssQ.item[0].set 5 ⟨0x0B4, 0⟩) } : SaveState).item[c][s'].id ≠
        ({ ssQ with item := ssQ.item.set 0 (ssQ.item[0].set 5 ⟨0x0B4, 0⟩) } : SaveState).item[c][s].id := by decide +kernel

theorem witness_Convert : Grade.bronze.code.toNat < Grade.silver.code.toNat ∧ Grade.silver.code.toNat < Grade.gold.code.toNat ∧
    (withSymbols 16 passwordA).pwlen.toNat = Grade.bronze.passwordLength ∧ ¬ (withBadSymbol 16 15).InDomain := by decide +kernel

theorem witness_Downgrade : tc1.Valid ∧ tc1.RoomFor tc1.defItemsSilver ∧ (withSymbols 260 passwordA).cfg = tc1 ∧
    (withSymbols 260 passwordA).pw.wf = true ∧ (withSymbols 260 passwordA).HoldsPassword .gold := by decide +kernel

/-- Two states that differ in what earlier commands left, and agree in what a pipeline reads. -/
theorem witness_PipelinesIgnoreEarlierCommands :
    s0 ≠ { withBits 7 with crc := 0, pwlen := 16, pw := [(20, 5)] } ∧
    { withBits 7 with crc := 0, pwlen := 16, pw := [(20, 5)] }.pw.wf = true ∧
    s0.cfg = { withBits 7 with crc := 0, pwlen := 16, pw := [(20, 5)] }.cfg ∧
    s0.ss = { withBits 7 with crc := 0, pwlen := 16, pw := [(20, 5)] }.ss ∧
    (∀ i < (withSymbols 16 []).pwlen.toNat,
      (withSymbols 16 []).pw.read i = { withBits 7 with crc := 0, pwlen := 16, pw := [(20, 5)] }.pw.read i) := by decide +kernel

end Sys2Proof.Tests
end

section
/-! The command port: what a step does with the next thing on the host's list, and the step that runs a legal word. -/

set_option autoImplicit false

namespace Sys2Proof.Machine

/-- A step takes one event off the host's list before it runs it (R20, R62). -/
theorem step_of_host_cons {s : State} {e : HostEvent} {rest : List HostEvent} (h : s.host = e :: rest) :
    step s = runEvent (s.setHost rest) e := by
  simp only [step, portStep, h]

/-- A legal word is the command it decodes to (R72). -/
theorem runWord_of_decode_ok {w : CmdWord} {i : Instr} (h : decode w = .ok i) (s : State) : runWord w s = exec i s := by
  simp only [runWord, h]

/-- Settles O1: the port takes the word, and the word runs as its decoding. -/
theorem stepRunsDecodedCommand : Obligations.StepRunsDecodedCommand := by
  intro s w i rest hhost hdecode
  calc step s = runEvent (s.setHost rest) (.command w) := step_of_host_cons hhost
    _ = runWord w (s.setHost rest) := rfl
    _ = exec i (s.setHost rest) := runWord_of_decode_ok hdecode _
    _ = exec i { s with host := rest } := rfl

end Sys2Proof.Machine
end

section
/-! Range reads bit by bit (R102): a range read is fixed by the cells of its range, it splits at any inner position, and the
part of a range beyond the end reads as zero. Then the fields that the commands write (R105, R106). -/

set_option autoImplicit false

namespace Sys2Proof.Machine

/-! ### Range reads -/

/-- Bit `k` of a range read is the cell `k` before the range's last one; the empty range (D9) has none. -/
theorem testBit_subBits (ba : List Bool) (lo hi k : Nat) :
    (subBits ba lo hi).testBit k = (decide (lo + k ≤ hi) && bitAt ba (hi - k)) := by
  unfold subBits
  split
  · by_cases hk : lo + k ≤ hi
    · simp [testBit_memRead, hk, show k < hi - lo + 1 by omega, show lo + (hi - lo - k) = hi - k by omega]
    · simp [testBit_memRead, hk, show ¬ k < hi - lo + 1 by omega]
  · simp [show ¬ lo + k ≤ hi by omega]

/-- The empty range reads 0 (D9). -/
theorem subBits_of_lt {ba : List Bool} {lo hi : Nat} (h : hi < lo) : subBits ba lo hi = 0 :=
  if_neg (by omega)

/-- A range read depends on the cells of its range alone. -/
theorem subBits_congr {ba ba' : List Bool} {lo hi : Nat} (h : ∀ p, lo ≤ p → p ≤ hi → bitAt ba p = bitAt ba' p) :
    subBits ba lo hi = subBits ba' lo hi := by
  refine Nat.eq_of_testBit_eq fun k => ?_
  rw [testBit_subBits, testBit_subBits]
  by_cases hk : lo + k ≤ hi
  · rw [h (hi - k) (by omega) (by omega)]
  · simp [hk]

/-- A range that holds the `n` low bits of `v`, most significant first, reads `v mod 2^n`. -/
theorem subBits_eq_mod {ba : List Bool} {a n v : Nat} (hn : 0 < n)
    (h : ∀ k < n, bitAt ba (a + k) = v.testBit (n - 1 - k)) : subBits ba a (a + n - 1) = v % 2 ^ n := by
  refine Nat.eq_of_testBit_eq fun k => ?_
  rw [testBit_subBits, Nat.testBit_mod_two_pow]
  by_cases hk : k < n
  · rw [show a + n - 1 - k = a + (n - 1 - k) by omega, h _ (by omega)]
    simp [hk, show a + k ≤ a + n - 1 by omega, show n - 1 - (n - 1 - k) = k by omega]
  · simp [hk, show ¬ a + k ≤ a + n - 1 by omega]

/-- R108 (c): a range splits at any position inside it. -/
theorem subBits_split (ba : List Bool) {lo m hi : Nat} (hlo : lo ≤ m) (hhi : m < hi) :
    subBits ba lo hi = subBits ba lo m <<< (hi - m) ||| subBits ba (m + 1) hi := by
  refine Nat.eq_of_testBit_eq fun k => ?_
  rw [Nat.testBit_or, Nat.testBit_shiftLeft, testBit_subBits, testBit_subBits, testBit_subBits]
  by_cases hk : k < hi - m
  · simp [show ¬ hi - m ≤ k by omega, show lo + k ≤ hi by omega, show m + 1 + k ≤ hi by omega]
  · have hcell : m - (k - (hi - m)) = hi - k ∨ hi < lo + k := by omega
    have hrange : lo + (k - (hi - m)) ≤ m ↔ lo + k ≤ hi := by omega
    simp only [hrange, show hi - m ≤ k by omega, show ¬ m + 1 + k ≤ hi by omega]
    rcases hcell with hcell | hout
    · simp [hcell]
    · simp [show ¬ lo + k ≤ hi by omega]

/-- A range wholly at or beyond the current length reads 0 (R101). -/
theorem subBits_of_length_le {ba : List Bool} {lo : Nat} (hi : Nat) (h : ba.length ≤ lo) : subBits ba lo hi = 0 := by
  refine Nat.eq_of_testBit_eq fun k => ?_
  rw [testBit_subBits, Nat.zero_testBit]
  by_cases hk : lo + k ≤ hi
  · rw [bitAt_of_le (by omega), Bool.and_false]
  · simp [hk]

/-- R108 (e): a range over the end is its valid part shifted left, by splitting it at the last valid cell. -/
theorem subBits_over_end {ba : List Bool} {lo hi : Nat} (hlo : lo < ba.length) (hhi : ba.length ≤ hi) :
    subBits ba lo hi = subBits ba lo (ba.length - 1) <<< (hi - ba.length + 1) := by
  rw [subBits_split ba (m := ba.length - 1) (by omega) (by omega), subBits_of_length_le hi (by omega), Nat.or_zero,
    show hi - (ba.length - 1) = hi - ba.length + 1 by omega]

/-! ### Fields written to the stream -/

/-- A write inside the current length, cell by cell (R12, R106). -/
theorem bitAt_memWrite {ba : List Bool} {a n : Nat} (h : a + n ≤ ba.length) (v p : Nat) :
    bitAt (memWrite ba a n v) p = if a ≤ p ∧ p < a + n then v.testBit (n - 1 - (p - a)) else bitAt ba p := by
  rw [memWrite, bitAt_overwrite, length_bitsOf]
  by_cases hp : a ≤ p ∧ p < a + n
  · rw [if_pos (by omega), if_pos hp, bitAt_bitsOf]
    simp [show p - a < n by omega]
  · rw [if_neg (by omega), if_neg hp]

/-- Two pushed fields are one: the first is the high part of the joined value (R108 (d)). -/
theorem bitsOf_add (n1 n2 v1 v2 : Nat) :
    bitsOf (n1 + n2) ((v1 % 2 ^ n1) <<< n2 ||| v2 % 2 ^ n2) = bitsOf n1 v1 ++ bitsOf n2 v2 := by
  refine stream_ext (by simp) fun i hi => ?_
  rw [length_bitsOf] at hi
  rw [bitAt_append, length_bitsOf, bitAt_bitsOf, bitAt_bitsOf, bitAt_bitsOf]
  simp only [Nat.testBit_or, Nat.testBit_shiftLeft, Nat.testBit_mod_two_pow]
  by_cases h : i < n1
  · simp [hi, h, show n2 ≤ n1 + n2 - 1 - i by omega, show ¬ n1 + n2 - 1 - i < n2 by omega,
      show n1 + n2 - 1 - i - n2 = n1 - 1 - i by omega, show n1 - 1 - i < n1 by omega]
  · rw [show n1 + n2 - 1 - i = n2 - 1 - (i - n1) by omega]
    simp [hi, h, show ¬ n2 ≤ n2 - 1 - (i - n1) by omega, show n2 - 1 - (i - n1) < n2 by omega,
      show i - n1 < n2 by omega]

/-- Response-wide values have all the bits a count of at most 32 takes. -/
theorem bitsOf_toNat_ofNat {n : Nat} (hn : n ≤ 32) (v : Nat) : bitsOf n (BitVec.ofNat 32 v).toNat = bitsOf n v := by
  refine stream_ext (by simp) fun i hi => ?_
  rw [length_bitsOf] at hi
  rw [bitAt_bitsOf, bitAt_bitsOf, BitVec.toNat_ofNat, Nat.testBit_mod_two_pow]
  simp [show n - 1 - i < 32 by omega]

end Sys2Proof.Machine
end

section
/-! The commands of the bit accumulator (40_bit_accumulator.md): one equation per case of each command, and what its
success says. -/

set_option autoImplicit false

namespace Sys2Proof.Machine

/-! ### Appending, all or none (D7) -/

/-- Bits that fit are appended. -/
theorem State.append_of_fits {s : State} {bits : List Bool} (h : s.ba.length + bits.length ≤ 2048) :
    s.append bits = .next ((s.setBa (s.ba ++ bits)).ok 0) :=
  if_neg (Nat.not_lt.2 h)

/-- Bits that do not all fit are refused. -/
theorem State.append_of_overflow {s : State} {bits : List Bool} (h : 2048 < s.ba.length + bits.length) :
    s.append bits = .next (s.failed .cap) :=
  if_pos h

/-! ### `PUSHN` (R105) -/

theorem exec_pushn_of_count_le {n : Count} (hn : n.toNat ≤ 32) (v : Data) (s : State) :
    exec (.pushn n v) s = s.append (bitsOf n.toNat v.toNat) :=
  if_neg (Nat.not_lt.2 hn)

theorem exec_pushn_of_count_gt {n : Count} (hn : 32 < n.toNat) (v : Data) (s : State) :
    exec (.pushn n v) s = .next (s.failed .range) :=
  if_pos hn

theorem exec_pushn_of_fits {n : Count} {s : State} (hn : n.toNat ≤ 32) (hfit : s.ba.length + n.toNat ≤ 2048) (v : Data) :
    exec (.pushn n v) s = .next ((s.setBa (s.ba ++ bitsOf n.toNat v.toNat)).ok 0) := by
  rw [exec_pushn_of_count_le hn, State.append_of_fits (by simpa using hfit)]

theorem exec_pushn_of_overflow {n : Count} {s : State} (hn : n.toNat ≤ 32) (hfull : 2048 < s.ba.length + n.toNat) (v : Data) :
    exec (.pushn n v) s = .next (s.failed .cap) := by
  rw [exec_pushn_of_count_le hn, State.append_of_overflow (by simpa using hfull)]

/-- A `PUSHN` that succeeds has appended its bits. -/
theorem ba_of_exec_pushn_ok {s t : State} {n : Count} {v : Data} (h : exec (.pushn n v) s = .next (t.ok 0)) :
    t.ba = s.ba ++ bitsOf n.toNat v.toNat := by
  rcases Nat.lt_or_ge 32 n.toNat with hn | hn
  · simp [exec_pushn_of_count_gt hn, State.failed] at h
  · rcases Nat.lt_or_ge 2048 (s.ba.length + n.toNat) with hfull | hfit
    · simp [exec_pushn_of_overflow hn hfull] at h
    · rw [exec_pushn_of_fits hn hfit] at h
      injection h with h
      exact (congrArg State.ba h).symm

/-! ### `REPL` (R106) -/

theorem exec_repl_of_inside {n : Count} {pos : Pos} {s : State} (hn : n.toNat ≤ 32) (hpos : pos.toNat < s.ba.length)
    (hend : pos.toNat + n.toNat ≤ s.ba.length) (v : Data) :
    exec (.repl n pos v) s = .next ((s.setBa (memWrite s.ba pos.toNat n.toNat v.toNat)).ok 0) :=
  (if_neg (Nat.not_lt.2 hn)).trans ((if_neg (Nat.not_le.2 hpos)).trans (if_neg (Nat.not_lt.2 hend)))

theorem exec_repl_of_outside {n : Count} {pos : Pos} {s : State}
    (h : 32 < n.toNat ∨ s.ba.length ≤ pos.toNat ∨ s.ba.length < pos.toNat + n.toNat) (v : Data) :
    exec (.repl n pos v) s = .next (s.failed .range) := by
  show execRepl n pos v s = s.fail .range
  unfold execRepl State.balen
  split_ifs
  · rfl
  · rfl
  · rfl
  · omega

/-- A `REPL` that succeeds lay inside the current length and has overwritten its range. -/
theorem ba_of_exec_repl_ok {s t : State} {n : Count} {pos : Pos} {v : Data}
    (h : exec (.repl n pos v) s = .next (t.ok 0)) :
    pos.toNat + n.toNat ≤ s.ba.length ∧ t.ba = memWrite s.ba pos.toNat n.toNat v.toNat := by
  by_cases hout : 32 < n.toNat ∨ s.ba.length ≤ pos.toNat ∨ s.ba.length < pos.toNat + n.toNat
  · simp [exec_repl_of_outside hout] at h
  · rw [exec_repl_of_inside (by omega) (by omega) (by omega)] at h
    injection h with h
    exact ⟨by omega, (congrArg State.ba h).symm⟩

/-! ### `SUBB` (R107) -/

theorem exec_subb_of_narrow {lo hi : Pos} (h : hi.toNat < lo.toNat + 32) (s : State) :
    exec (.subb lo hi) s = .next (s.ok (dataOf (subBits s.ba lo.toNat hi.toNat))) :=
  if_neg (by omega)

theorem exec_subb_of_wide {lo hi : Pos} (h : lo.toNat + 32 ≤ hi.toNat) (s : State) :
    exec (.subb lo hi) s = .next (s.failed .range) :=
  if_pos (by omega)

end Sys2Proof.Machine
end

section
/-! The statements about the bit accumulator. -/

set_option autoImplicit false

namespace Sys2Proof.Machine

/-- Settles O20. -/
theorem baclrEmptiesTheAccumulator : Obligations.BaclrEmptiesTheAccumulator := fun _ => rfl

/-- Settles O21: the two cases of an append of one bit. -/
theorem pushbAppendsTheLowBit : Obligations.PushbAppendsTheLowBit := by
  intro s v
  exact ⟨fun hfit => State.append_of_fits (bits := bitsOf 1 v.toNat) (by simpa using hfit),
    fun hfull => State.append_of_overflow (bits := bitsOf 1 v.toNat) (by simpa using Nat.lt_succ_of_le hfull)⟩

/-- Settles O22: the new cells are those of the appended field. -/
theorem pushnAppendsTheLowBits : Obligations.PushnAppendsTheLowBits := by
  intro s n v
  refine ⟨fun hn hfit => ⟨_, exec_pushn_of_fits hn hfit v, by simp, fun p hp => ?_, fun k hk => ?_⟩,
    fun hn => exec_pushn_of_count_gt hn v s, fun hn hfull => exec_pushn_of_overflow hn hfull v⟩
  · rw [bitAt_append, if_pos hp]
  · simp [bitAt_append, bitAt_bitsOf, hk, BitVec.getLsbD]

/-- Settles O23: the write inside the length, cell by cell. -/
theorem replOverwritesInsideTheLength : Obligations.ReplOverwritesInsideTheLength := by
  intro s n pos v
  exact ⟨fun hn hpos hend => ⟨_, exec_repl_of_inside hn hpos hend v, by simp, bitAt_memWrite hend v.toNat⟩,
    fun hout => exec_repl_of_outside hout v⟩

/-- Settles O24: the range read, bit by bit. -/
theorem subbReadsTheRange : Obligations.SubbReadsTheRange := by
  intro s lo hi
  refine ⟨fun hle hnarrow => ⟨_, exec_subb_of_narrow (by omega) s, fun k hk => ?_⟩, fun hlt => ?_,
    fun hwide => exec_subb_of_wide hwide s⟩
  · have hrange : lo.toNat + k ≤ hi.toNat ↔ k ≤ hi.toNat - lo.toNat := by omega
    rw [dataOf, BitVec.getLsbD_ofNat, testBit_subBits]
    simp [hk, hrange, bitAt, List.getD_eq_getElem?_getD]
  · rw [exec_subb_of_narrow (by omega), subBits_of_lt hlt]
    rfl

/-- R108 (a). -/
theorem subBits_after_pushn {s t : State} {n : Count} {v : Data} (h : exec (.pushn n v) s = .next (t.ok 0)) :
    (0 < n.toNat → subBits t.ba s.ba.length (s.ba.length + n.toNat - 1) = v.toNat % 2 ^ n.toNat) ∧
      ∀ lo hi, hi < s.ba.length → subBits t.ba lo hi = subBits s.ba lo hi := by
  rw [ba_of_exec_pushn_ok h]
  refine ⟨fun hn => subBits_eq_mod hn fun k hk => ?_, fun lo hi hhi => subBits_congr fun p _ hp => ?_⟩
  · simp [bitAt_append, bitAt_bitsOf, hk]
  · rw [bitAt_append, if_pos (by omega)]

/-- R108 (b). -/
theorem subBits_after_repl {s t : State} {n : Count} {pos : Pos} {v : Data}
    (h : exec (.repl n pos v) s = .next (t.ok 0)) :
    (0 < n.toNat → subBits t.ba pos.toNat (pos.toNat + n.toNat - 1) = v.toNat % 2 ^ n.toNat) ∧
      t.ba.length = s.ba.length ∧
      ∀ p, (p < pos.toNat ∨ pos.toNat + n.toNat ≤ p) → bitAt t.ba p = bitAt s.ba p := by
  obtain ⟨hend, hba⟩ := ba_of_exec_repl_ok h
  rw [hba]
  refine ⟨fun hn => subBits_eq_mod hn fun k hk => ?_, by simp, fun p hp => ?_⟩
  · rw [bitAt_memWrite hend, if_pos (by omega), Nat.add_sub_cancel_left]
  · rw [bitAt_memWrite hend, if_neg (by omega)]

/-- R108 (d): the second push appends behind the first, and the two fields are the one of the joined value. -/
theorem pushn_pushn_eq_pushn {s : State} {n1 n2 : Count} (v1 v2 : Data) (hn : n1.toNat + n2.toNat ≤ 32)
    (hfit : s.ba.length + n1.toNat + n2.toNat ≤ 2048) :
    ∃ t, runCommands [.pushn n1 v1, .pushn n2 v2] s = .next t ∧
      exec (.pushn (n1 + n2)
        (BitVec.ofNat 32 ((v1.toNat % 2 ^ n1.toNat) <<< n2.toNat ||| v2.toNat % 2 ^ n2.toNat))) s = .next t := by
  have hcount : (n1 + n2).toNat = n1.toNat + n2.toNat := by rw [BitVec.toNat_add]; omega
  have hfirst := exec_pushn_of_fits (n := n1) (s := s) (by omega) (by omega) v1
  have hsecond := exec_pushn_of_fits (n := n2) (s := (s.setBa (s.ba ++ bitsOf n1.toNat v1.toNat)).ok 0) (by omega)
    (by simpa [Nat.add_assoc] using hfit) v2
  refine ⟨_, ?_, exec_pushn_of_fits (n := n1 + n2) (by omega) (by omega) _⟩
  rw [hcount, bitsOf_toNat_ofNat hn, bitsOf_add, ← List.append_assoc]
  simp only [runCommands, hfirst, hsecond]
  rfl

/-- Settles O25: the laws (a) to (e) of R108, each a lemma above. -/
theorem accumulatorLaws : Obligations.AccumulatorLaws :=
  ⟨fun _ _ _ _ => subBits_after_pushn, fun _ _ _ _ _ => subBits_after_repl, fun ba _ _ _ => subBits_split ba,
    fun _ _ _ v1 v2 => pushn_pushn_eq_pushn v1 v2, fun _ _ _ => subBits_over_end⟩

end Sys2Proof.Machine
end

section
/-! The SaveState registers on the command port (R27, R28): their values as numbers, which values fit (R141), and what a
register reads after a write to the same or to another register. -/

set_option autoImplicit false

namespace Sys2Proof.Machine

/-! ### Reads -/

/-- The raw-save form of an item, its two fields side by side (R28). -/
theorem toNat_dataOfItem (i : Item) : (dataOfItem i).toNat = i.qty.toNat <<< 11 ||| i.id.toNat := by
  have hqty := i.qty.isLt
  have hid := i.id.isLt
  have hor : i.qty.toNat <<< 11 ||| i.id.toNat = i.qty.toNat <<< 11 + i.id.toNat :=
    (Nat.shiftLeft_add_eq_or_of_lt (by omega) _).symm
  have hor' : i.qty.toNat <<< 2 <<< 9 ||| i.id.toNat = i.qty.toNat <<< 2 <<< 9 + i.id.toNat :=
    (Nat.shiftLeft_add_eq_or_of_lt hid _).symm
  simp only [dataOfItem, BitVec.toNat_setWidth, BitVec.toNat_append, BitVec.toNat_ofNat, hor,
    Nat.zero_mod, Nat.or_zero, hor']
  omega

/-! ### Values that fit -/

theorem accepts_level {v : Data} {c : Fin 4} : (SaveReg.level c).accepts v = true ↔ v.toNat ≤ 127 := by
  simp [SaveReg.accepts, Nat.lt_succ_iff]

theorem accepts_comp {v : Data} {e : Fin 4} : (SaveReg.comp e).accepts v = true ↔ v.toNat ≤ 127 := by
  simp [SaveReg.accepts, Nat.lt_succ_iff]

theorem accepts_event {v : Data} {k : Fin 6} : (SaveReg.event k).accepts v = true ↔ v.toNat ≤ 1 := by
  simp [SaveReg.accepts]

theorem accepts_coins {v : Data} : SaveReg.coins.accepts v = true ↔ v.toNat ≤ 0xFFFFFF := by
  simp [SaveReg.accepts, Nat.lt_succ_iff]

theorem accepts_stat {v : Data} {c : Fin 4} {f : StatField} :
    (SaveReg.stat c f).accepts v = true ↔ v.toNat ≤ 2 ^ f.width - 1 := by
  have hpos := Nat.two_pow_pos f.width
  simp only [SaveReg.accepts, decide_eq_true_eq]
  omega

/-- An item value fits when the bits outside the two fields of R28 are 0. -/
theorem accepts_item_iff_bits {v : Data} {c : Fin 4} {k : Fin 15} :
    (SaveReg.item c k).accepts v = true ↔ ∀ i, (16 ≤ i ∨ i = 9 ∨ i = 10) → v.getLsbD i = false := by
  simp only [SaveReg.accepts, Bool.and_eq_true, beq_iff_eq]
  constructor
  · rintro ⟨hhigh, hmid⟩ i hi
    by_cases h16 : 16 ≤ i
    · by_cases h32 : i < 32
      · simpa [show 16 + (i - 16) = i by omega, show i - 16 < 16 by omega] using congrArg (BitVec.getLsbD · (i - 16)) hhigh
      · exact BitVec.getLsbD_of_ge v i (by omega)
    · simpa [show 9 + (i - 9) = i by omega, show i - 9 < 2 by omega] using congrArg (BitVec.getLsbD · (i - 9)) hmid
  · intro h
    refine ⟨BitVec.eq_of_getLsbD_eq fun i _ => ?_, BitVec.eq_of_getLsbD_eq fun i _ => ?_⟩
    · simp [h (16 + i) (by omega)]
    · simp [h (9 + i) (by omega)]

/-- The mask of R141 for an item is `V[31:16]` and `V[10:9]`. -/
theorem getLsbD_itemMask : ∀ i < 32, (0xFFFF0600 : Data).getLsbD i = decide (16 ≤ i ∨ i = 9 ∨ i = 10) := by
  decide

theorem accepts_item {v : Data} {c : Fin 4} {k : Fin 15} :
    (SaveReg.item c k).accepts v = true ↔ v &&& 0xFFFF0600 = 0 := by
  rw [accepts_item_iff_bits]
  constructor
  · intro h
    refine BitVec.eq_of_getLsbD_eq fun i hi => ?_
    rw [BitVec.getLsbD_and, getLsbD_itemMask i hi]
    by_cases hout : 16 ≤ i ∨ i = 9 ∨ i = 10
    · simp [h i hout]
    · simp [hout]
  · intro h i hout
    by_cases hi : i < 32
    · have hbit : (v &&& 0xFFFF0600).getLsbD i = false := by rw [h, BitVec.ofNat_eq_ofNat, BitVec.getLsbD_zero]
      rwa [BitVec.getLsbD_and, getLsbD_itemMask i hi, decide_eq_true hout, Bool.and_true] at hbit
    · exact BitVec.getLsbD_of_ge v i (by omega)

/-! ### Reads after writes -/

/-- A value that fits a register of `w` bits is what the register reads as. -/
theorem setWidth_setWidth_of_lt {v : Data} {w : Nat} (h : v.toNat < 2 ^ w) : (v.setWidth w).setWidth 32 = v := by
  refine BitVec.eq_of_toNat_eq ?_
  rw [BitVec.toNat_setWidth, BitVec.toNat_setWidth, Nat.mod_eq_of_lt h, Nat.mod_eq_of_lt v.isLt]

theorem readStat_writeStat_same (t : Stats) {v : Data} {f : StatField} (h : v.toNat < 2 ^ f.width) :
    readStat (writeStat t v f) f = v := by
  cases f <;> exact setWidth_setWidth_of_lt h

theorem readStat_writeStat_of_ne (t : Stats) (v : Data) {f f' : StatField} (h : f' ≠ f) :
    readStat (writeStat t v f) f' = readStat t f' := by
  cases f <;> cases f' <;> trivial

/-- A value without a bit outside the two fields is the raw-save form of the item it stands for (R28, R141). -/
theorem dataOfItem_itemOfData {v : Data} (h : ∀ i, (16 ≤ i ∨ i = 9 ∨ i = 10) → v.getLsbD i = false) :
    dataOfItem (itemOfData v) = v := by
  refine BitVec.eq_of_getLsbD_eq fun i hi => ?_
  simp only [dataOfItem, itemOfData, BitVec.getLsbD_setWidth, BitVec.getLsbD_append, BitVec.getLsbD_extractLsb', hi]
  by_cases hid : i < 9
  · simp [hid]
  · by_cases hgap : i < 11
    · simp [hid, h i (by omega), show i - 9 < 2 by omega]
    · by_cases hqty : i < 16
      · simp [hid, show ¬ i - 9 < 2 by omega, show i - 9 - 2 < 5 by omega, show 11 + (i - 9 - 2) = i by omega]
      · simp [hid, h i (by omega), show ¬ i - 9 < 2 by omega, show ¬ i - 9 - 2 < 5 by omega]

theorem read_write_same (ss : SaveState) {v : Data} {r : SaveReg} (h : r.accepts v = true) : (ss.write v r).read r = v := by
  cases r with
  | level c => simpa [SaveState.read, SaveState.write] using setWidth_setWidth_of_lt (of_decide_eq_true h)
  | comp e => simpa [SaveState.read, SaveState.write] using setWidth_setWidth_of_lt (of_decide_eq_true h)
  | event k =>
    have hv : v.toNat < 2 := of_decide_eq_true h
    obtain rfl | rfl : v = 0 ∨ v = 1 := by bv_omega
    · simp [SaveState.read, SaveState.write, dataOf]
    · simp [SaveState.read, SaveState.write, dataOf]
  | coins => exact setWidth_setWidth_of_lt (of_decide_eq_true h)
  | stat c f => simpa [SaveState.read, SaveState.write] using readStat_writeStat_same _ (of_decide_eq_true h)
  | item c k => simpa [SaveState.read, SaveState.write] using dataOfItem_itemOfData (accepts_item_iff_bits.1 h)

theorem read_write_of_ne (ss : SaveState) (v : Data) {r r' : SaveReg} (h : r' ≠ r) :
    (ss.write v r).read r' = ss.read r' := by
  cases r with
  | level c =>
    cases r' with
    | level d => exact congrArg (BitVec.setWidth 32) (Vector.getElem_set_ne c.isLt d.isLt fun e => h (by rw [Fin.ext e]))
    | _ => rfl
  | comp c =>
    cases r' with
    | comp d => exact congrArg (BitVec.setWidth 32) (Vector.getElem_set_ne c.isLt d.isLt fun e => h (by rw [Fin.ext e]))
    | _ => rfl
  | event c =>
    cases r' with
    | event d =>
      exact congrArg (fun b : Bool => dataOf b.toNat) (Vector.getElem_set_ne c.isLt d.isLt fun e => h (by rw [Fin.ext e]))
    | _ => rfl
  | coins =>
    cases r' with
    | coins => exact absurd rfl h
    | _ => rfl
  | stat c f =>
    cases r' with
    | stat d f' =>
      by_cases hd : c = d
      · subst hd
        have hne : f' ≠ f := fun e => h (by rw [e])
        simp [SaveState.read, SaveState.write, readStat_writeStat_of_ne _ _ hne]
      · simp [SaveState.read, SaveState.write, Fin.val_ne_of_ne hd]
    | _ => rfl
  | item c k =>
    cases r' with
    | item d k' =>
      by_cases hd : c = d
      · subst hd
        have hne : k.val ≠ k'.val := fun e => h (by rw [Fin.ext e])
        simp [SaveState.read, SaveState.write, hne]
      · simp [SaveState.read, SaveState.write, Fin.val_ne_of_ne hd]
    | _ => rfl

/-! ### `SSWR` (R141) and `SSRD` (R142) -/

theorem exec_sswr_of_reserved {sel : Pos} (h : saveRegOf sel = none) (v : Data) (s : State) :
    exec (.sswr sel v) s = .next (s.failed .illegal) := by
  show execSswr sel v s = _
  rw [execSswr, h]
  rfl

theorem exec_sswr_of_accepts {sel : Pos} {v : Data} {r : SaveReg} (hsel : saveRegOf sel = some r)
    (h : r.accepts v = true) (s : State) : exec (.sswr sel v) s = .next ((s.setSs (s.ss.write v r)).ok 0) := by
  show execSswr sel v s = _
  rw [execSswr, hsel]
  exact if_pos h

theorem exec_sswr_of_too_wide {sel : Pos} {v : Data} {r : SaveReg} (hsel : saveRegOf sel = some r)
    (h : ¬ r.accepts v = true) (s : State) : exec (.sswr sel v) s = .next (s.failed .width) := by
  show execSswr sel v s = _
  rw [execSswr, hsel]
  exact if_neg h

theorem exec_ssrd_of_reserved {sel : Pos} (h : saveRegOf sel = none) (s : State) :
    exec (.ssrd sel) s = .next (s.failed .illegal) := by
  show execSsrd sel s = _
  rw [execSsrd, h]
  rfl

theorem exec_ssrd_of_register {sel : Pos} {r : SaveReg} (hsel : saveRegOf sel = some r) (s : State) :
    exec (.ssrd sel) s = .next (s.ok (s.ss.read r)) := by
  show execSsrd sel s = _
  rw [execSsrd, hsel]
  rfl

/-- What `SSWR` does to a register, whatever words say which values fit it. -/
theorem exec_sswr_of_fits_iff {sel : Pos} {v : Data} {r : SaveReg} (hsel : saveRegOf sel = some r) {fits : Prop}
    (hfits : r.accepts v = true ↔ fits) (s : State) :
    (fits → ∃ ss', exec (.sswr sel v) s = .next ({ s with ss := ss' }.ok 0) ∧ ss'.read r = v ∧
        ∀ r', r' ≠ r → ss'.read r' = s.ss.read r') ∧
      (¬ fits → exec (.sswr sel v) s = .next (s.failed .width)) := by
  rw [← hfits]
  exact ⟨fun h => ⟨_, exec_sswr_of_accepts hsel h s, read_write_same s.ss h, fun _ => read_write_of_ne s.ss v⟩,
    fun h => exec_sswr_of_too_wide hsel h s⟩

end Sys2Proof.Machine
end

section
/-! Where a part stands inside a list: the parts of a payload are concatenations of concatenations (R122), and a field's
position is the sum of the positions on the way to it. -/

set_option autoImplicit false

namespace Sys2Proof.Machine

section
variable {α β : Type}

/-- The list `part` stands in `l` from position `a` on. -/
def SegmentAt (l : List α) (a : Nat) (part : List α) : Prop := part <+: l.drop a

theorem segmentAt_self (l : List α) : SegmentAt l 0 l := List.prefix_rfl

/-- What stands behind the first part of a concatenation. -/
theorem segmentAt_append_right {l : List α} {a : Nat} (h : l.length = a) (l' : List α) : SegmentAt (l ++ l') a l' := by
  rw [SegmentAt, List.drop_left' h]

theorem SegmentAt.append {l part : List α} {a : Nat} (h : SegmentAt l a part) (l' : List α) : SegmentAt (l ++ l') a part := by
  rw [SegmentAt, List.drop_append]
  exact h.trans (List.prefix_append ..)

/-- A part of a part: the positions add up. -/
theorem SegmentAt.trans {l part sub : List α} {a b : Nat} (h : SegmentAt l a part) (hsub : SegmentAt part b sub) :
    SegmentAt l (a + b) sub := by
  rw [SegmentAt, ← List.drop_drop]
  exact List.IsPrefix.trans hsub (h.drop b)

theorem SegmentAt.getElem? {l part : List α} {a : Nat} (h : SegmentAt l a part) {k : Nat} (hk : k < part.length) :
    l[a + k]? = some part[k] := by
  rw [← List.getElem?_drop]
  exact List.prefix_iff_getElem?.1 h k hk

/-- The part that element `i` contributes stands behind those of the elements before it. -/
theorem segmentAt_flatMap {l : List α} (f : α → List β) {i : Nat} (h : i < l.length) :
    SegmentAt (l.flatMap f) ((l.take i).flatMap f).length (f l[i]) := by
  have hsplit : l.flatMap f = (l.take i).flatMap f ++ f l[i] ++ (l.drop (i + 1)).flatMap f := by
    rw [List.append_assoc, ← List.flatMap_cons, ← List.flatMap_append, List.cons_getElem_drop_succ, List.take_append_drop]
  rw [hsplit]
  exact (segmentAt_append_right rfl _).append _

theorem length_flatMap_of_const {l : List α} {f : α → List β} {w : Nat} (hw : ∀ x ∈ l, (f x).length = w) :
    (l.flatMap f).length = w * l.length := by
  induction l with
  | nil => simp
  | cons x xs ih =>
    simp only [List.flatMap_cons, List.length_append, List.length_cons]
    rw [ih fun y hy => hw y (List.mem_cons_of_mem x hy), hw x List.mem_cons_self]
    ring

/-- Parts of one width stand at the multiples of it. -/
theorem segmentAt_flatMap_of_const {l : List α} {f : α → List β} {w i : Nat} (hw : ∀ x ∈ l, (f x).length = w)
    (h : i < l.length) : SegmentAt (l.flatMap f) (w * i) (f l[i]) := by
  have hlen : ((l.take i).flatMap f).length = w * i := by
    rw [length_flatMap_of_const fun x hx => hw x (List.mem_of_mem_take hx), List.length_take_of_le h.le]
  exact hlen ▸ segmentAt_flatMap f h

end

/-! ### Cells and range reads -/

theorem bitAt_take (l : List Bool) {n i : Nat} (h : i < n) : bitAt (l.take n) i = bitAt l i := by
  simp [bitAt, h]

/-- A register read from the stream holds the range read. -/
@[simp] theorem toNat_memReadReg (ba : List Bool) (addr w : Nat) : (memReadReg ba addr w).toNat = memRead ba addr w :=
  Nat.mod_eq_of_lt (memRead_lt ba addr w)

/-- A range read of one cell. -/
theorem memRead_one (ba : List Bool) (p : Nat) : memRead ba p 1 = (bitAt ba p).toNat := by
  have hcell : readBits ba p 1 = [bitAt ba p] := stream_ext (by simp) fun i hi => by
    obtain rfl : i = 0 := by simpa using hi
    simp [bitAt_readBits]
  rw [memRead, hcell]
  cases bitAt ba p <;> rfl

/-! ### Parts of the stream -/

theorem SegmentAt.bitAt_eq {ba bits : List Bool} {a : Nat} (h : SegmentAt ba a bits) {k : Nat} (hk : k < bits.length) :
    bitAt ba (a + k) = bitAt bits k := by
  rw [bitAt, bitAt, List.getD_eq_getElem?_getD, h.getElem? hk, List.getD_eq_getElem _ _ hk]
  rfl

/-- Register bit `j` of a packed register: most significant first (R51). -/
theorem bitAt_bitsOfReg {w j : Nat} (v : BitVec w) (hj : j < w) : bitAt (bitsOfReg v) (w - 1 - j) = v.getLsbD j := by
  rw [bitsOfReg, bitAt_bitsOf, show w - 1 - (w - 1 - j) = j by omega]
  simp [show w - 1 - j < w by omega, BitVec.getLsbD]

theorem SegmentAt.bitAt_reg {ba : List Bool} {a w j : Nat} {v : BitVec w} (h : SegmentAt ba a (bitsOfReg v)) (hj : j < w) :
    bitAt ba (a + (w - 1 - j)) = v.getLsbD j := by
  rw [h.bitAt_eq (by rw [length_bitsOfReg]; omega), bitAt_bitsOfReg v hj]

/-- A range read gives the part that stands there. -/
theorem SegmentAt.readBits_eq {ba bits : List Bool} {a n : Nat} (h : SegmentAt ba a bits) (hn : bits.length = n) :
    readBits ba a n = bits := by
  refine stream_ext (by simp [hn]) fun k hk => ?_
  rw [length_readBits] at hk
  simp [bitAt_readBits, hk, h.bitAt_eq (hn ▸ hk)]

/-- A range read gives the register that is packed there. -/
theorem SegmentAt.memRead_reg {ba : List Bool} {a w : Nat} {v : BitVec w} (h : SegmentAt ba a (bitsOfReg v)) :
    memRead ba a w = v.toNat := by
  rw [memRead, h.readBits_eq (length_bitsOfReg v), bitsOfReg, valueOf_bitsOf, Nat.mod_eq_of_lt v.isLt]

end Sys2Proof.Machine
end

section
/-! The parts of a payload (R122 to R133): the length of each, and where each field stands in its part. -/

set_option autoImplicit false

namespace Sys2Proof.Machine

/-! ### The head (R123, R124) -/

@[simp] theorem length_headBlock (v : Vector (BitVec 7) 4) : (headBlock v).length = 28 := by simp [headBlock]

/-- Register `c` of a head block stands behind the registers above it (R123). -/
theorem segmentAt_headBlock (v : Vector (BitVec 7) 4) (c : Fin 4) :
    SegmentAt (headBlock v) (7 * (3 - c.val)) (bitsOfReg v[c]) := by
  match c with
  | 0 => exact segmentAt_append_right (by simp) _
  | 1 => exact (segmentAt_append_right (by simp) _).append _
  | 2 => exact ((segmentAt_append_right (by simp) _).append _).append _
  | 3 => exact (((segmentAt_self _).append _).append _).append _

/-- A run of rising positions picks the cells that stand there. -/
theorem map_getD_run (l : List Bool) {a n : Nat} (h : a + n ≤ l.length) :
    ((List.range n).map (a + ·)).map (l.getD · false) = (l.drop a).take n := by
  refine List.ext_getElem (by simp; omega) fun i hi _ => ?_
  have hi' : i < n := by simpa using hi
  simp [show a + i < l.length by omega]

/-- `HEAD_PERM`, its three runs of rising positions (R124). -/
theorem headPerm_eq : headPerm =
    (List.range 28).map (0 + ·) ++ (List.range 4).map (52 + ·) ++ (List.range 24).map (28 + ·) := by
  decide

/-- R124: the levels block, then the companions block with its low 4 bits first. -/
theorem packHead_eq (ss : SaveState) :
    packHead ss = headBlock ss.level ++ (headBlock ss.comp).drop 24 ++ (headBlock ss.comp).take 24 := by
  rw [packHead, headPerm_eq, List.map_append, List.map_append, map_getD_run _ (by simp), map_getD_run _ (by simp),
    map_getD_run _ (by simp)]
  simp [List.drop_append, List.take_of_length_le]

@[simp] theorem length_packHead (ss : SaveState) : (packHead ss).length = 56 := by simp [packHead, headPerm]

/-- The levels block is the first 28 bits of the head. -/
theorem segmentAt_packHead_level (ss : SaveState) : SegmentAt (packHead ss) 0 (headBlock ss.level) := by
  rw [packHead_eq]
  exact ((segmentAt_self _).append _).append _

theorem segmentAt_packHead_comp_low (ss : SaveState) : SegmentAt (packHead ss) 28 ((headBlock ss.comp).drop 24) := by
  rw [packHead_eq]
  exact (segmentAt_append_right (length_headBlock _) _).append _

theorem segmentAt_packHead_comp_high (ss : SaveState) : SegmentAt (packHead ss) 32 ((headBlock ss.comp).take 24) := by
  rw [packHead_eq]
  exact segmentAt_append_right (by simp) _

/-! ### The events and the bitmap (R125, R126) -/

@[simp] theorem length_packEvents (ss : SaveState) : (packEvents ss).length = 8 := length_takeBits ..

theorem bitAt_packEvents (ss : SaveState) (k : Fin 6) : bitAt (packEvents ss) k.val = ss.event[k] := by
  rw [packEvents, bitAt_takeBits]
  simp [bitAt_eq, eventSlots, show k.val < 8 by omega]

/-- The slots without an event are 0 (R125). -/
theorem bitAt_packEvents_of_ge (ss : SaveState) {k : Nat} (h : 6 ≤ k) : bitAt (packEvents ss) k = false := by
  rw [packEvents, bitAt_takeBits, bitAt_of_le (by simpa using h), Bool.and_false]

@[simp] theorem length_packBitmap (cfg : Params) (ss : SaveState) : (packBitmap cfg ss).length = 8 := by simp [packBitmap]

theorem bitAt_packBitmap (cfg : Params) (ss : SaveState) (k : Fin 8) :
    bitAt (packBitmap cfg ss) k.val = holdsId ss.item cfg.watch[k] := by
  simp [packBitmap, bitAt_eq]

/-! ### The stats (R127) -/

@[simp] theorem length_packStats (t : Stats) : (packStats t).length = 60 := by simp [packStats]

@[simp] theorem length_flatMap_packStats (v : Vector Stats 4) : (v.toList.flatMap packStats).length = 240 := by
  simp [length_flatMap_of_const fun t _ => length_packStats t]

/-- The stats of character `c` stand at `60c`. -/
theorem segmentAt_flatMap_packStats (v : Vector Stats 4) (c : Fin 4) :
    SegmentAt (v.toList.flatMap packStats) (60 * c.val) (packStats v[c]) := by
  simpa using segmentAt_flatMap_of_const (l := v.toList) (i := c.val) (fun t _ => length_packStats t) (by simp)

/-- The six reads of R127 where the stats of one character stand. -/
theorem SegmentAt.memRead_packStats {ba : List Bool} {a : Nat} {t : Stats} (h : SegmentAt ba a (packStats t)) :
    memRead ba a 11 = t.hp.toNat ∧ memRead ba (a + 11) 11 = t.rp.toNat ∧ memRead ba (a + 22) 10 = t.attack.toNat ∧
      memRead ba (a + 32) 10 = t.defense.toNat ∧ memRead ba (a + 42) 10 = t.agility.toNat ∧
      memRead ba (a + 52) 8 = t.luck.toNat := by
  have hhp : SegmentAt (packStats t) 0 (bitsOfReg t.hp) :=
    (((((segmentAt_self _).append _).append _).append _).append _).append _
  have hrp : SegmentAt (packStats t) 11 (bitsOfReg t.rp) :=
    ((((segmentAt_append_right (by simp) _).append _).append _).append _).append _
  have hattack : SegmentAt (packStats t) 22 (bitsOfReg t.attack) :=
    (((segmentAt_append_right (by simp) _).append _).append _).append _
  have hdefense : SegmentAt (packStats t) 32 (bitsOfReg t.defense) :=
    ((segmentAt_append_right (by simp) _).append _).append _
  have hagility : SegmentAt (packStats t) 42 (bitsOfReg t.agility) := (segmentAt_append_right (by simp) _).append _
  have hluck : SegmentAt (packStats t) 52 (bitsOfReg t.luck) := segmentAt_append_right (by simp) _
  exact ⟨(h.trans hhp).memRead_reg, (h.trans hrp).memRead_reg, (h.trans hattack).memRead_reg,
    (h.trans hdefense).memRead_reg, (h.trans hagility).memRead_reg, (h.trans hluck).memRead_reg⟩

/-! ### The items (R129) -/

@[simp] theorem length_itemList (table : ItemTable) : (itemList table).length = 60 := by
  simp [itemList, length_flatMap_of_const fun (row : Vector Item 15) _ => row.length_toList]

/-- Slot `s` of character `c` is item `15c + s`. -/
theorem getElem_itemList (table : ItemTable) (c : Fin 4) (s : Fin 15) :
    (itemList table)[15 * c.val + s.val]'(by rw [length_itemList]; omega) = table[c][s] := by
  have hrow := segmentAt_flatMap_of_const (l := table.toList) (i := c.val) (fun row _ => row.length_toList) (by simp)
  have hslot := hrow.getElem? (k := s.val) (by simp)
  exact (List.getElem_eq_iff _).2 (by simpa [itemList] using hslot)

/-- What the item of index `t` adds to the items part: its identifier, and the sync bit behind every 7th. -/
def packItem (it : Item × Nat) : List Bool := bitsOfReg it.1.id ++ if (it.2 + 1) % syncEvery = 0 then [false] else []

theorem packItems_eq_flatMap (ss : SaveState) : packItems ss = (itemList ss.item).zipIdx.flatMap packItem := rfl

/-- The items before item `t` fill 9 bits each, and one more for every 7 of them. -/
theorem length_flatMap_packItem (l : List Item) {t : Nat} (h : t ≤ l.length) :
    ((l.zipIdx.take t).flatMap packItem).length = 9 * t + t / 7 := by
  induction t with
  | zero => rfl
  | succ t ih =>
    rw [List.take_succ_eq_append_getElem (by simpa using h), List.flatMap_append, List.length_append, ih (by omega)]
    by_cases hsync : (t + 1) % 7 = 0
    · simp [packItem, syncEvery, hsync]; omega
    · simp [packItem, syncEvery, hsync]; omega

@[simp] theorem length_packItems (ss : SaveState) : (packItems ss).length = 548 := by
  have hall := length_flatMap_packItem (itemList ss.item) le_rfl
  rwa [List.take_of_length_le (by simp), length_itemList, ← packItems_eq_flatMap] at hall

theorem segmentAt_packItems (ss : SaveState) {t : Nat} (h : t < (itemList ss.item).length) :
    SegmentAt (packItems ss) (9 * t + t / 7) (packItem ((itemList ss.item)[t], t)) := by
  have hat := segmentAt_flatMap packItem (l := (itemList ss.item).zipIdx) (i := t) (by simpa using h)
  rw [length_flatMap_packItem _ h.le] at hat
  simpa [packItems_eq_flatMap] using hat

/-- R129: the identifier of slot `t = 15c + s`. -/
theorem segmentAt_packItems_id (ss : SaveState) (c : Fin 4) (s : Fin 15) :
    SegmentAt (packItems ss) (9 * (15 * c.val + s.val) + (15 * c.val + s.val) / 7) (bitsOfReg ss.item[c][s].id) := by
  have hat := segmentAt_packItems ss (t := 15 * c.val + s.val) (by rw [length_itemList]; omega)
  rw [getElem_itemList] at hat
  exact hat.trans ((segmentAt_self _).append _)

/-- R129: sync bit `m` stands behind identifier `7m + 6`. -/
theorem bitAt_packItems_sync (ss : SaveState) {m : Nat} (hm : m < 8) : bitAt (packItems ss) (63 + 64 * m) = false := by
  have hat := segmentAt_packItems ss (t := 7 * m + 6) (by rw [length_itemList]; omega)
  rw [packItem, if_pos (by simp only [syncEvery]; omega)] at hat
  have hbit := (hat.trans (segmentAt_append_right (length_bitsOfReg _) _)).bitAt_eq (k := 0) (by simp)
  rwa [show 9 * (7 * m + 6) + (7 * m + 6) / 7 + 9 + 0 = 63 + 64 * m by omega] at hbit

/-! ### The quantities (R130, R131) -/

/-- R130: `first(c, k)` is the lowest slot that holds the id. -/
theorem firstSlot_of_lowest {slots : Vector Item 15} {id : ItemId} {s : Fin 15} (hid : slots[s].id = id)
    (hlow : ∀ s' < s, slots[s'].id ≠ id) : firstSlot slots id = some s := by
  refine List.find?_eq_some_iff_getElem.2 ⟨by simpa using hid, s.val, by simp, by simp, fun j hj => ?_⟩
  simpa using hlow ⟨j, by omega⟩ hj

theorem firstSlot_of_not_held {slots : Vector Item 15} {id : ItemId} (h : ∀ s : Fin 15, slots[s].id ≠ id) :
    firstSlot slots id = none := by
  simpa [firstSlot] using h

theorem quantityOf_of_lowest {slots : Vector Item 15} {id : ItemId} {s : Fin 15} (hid : slots[s].id = id)
    (hlow : ∀ s' < s, slots[s'].id ≠ id) : quantityOf slots id = slots[s].qty := by
  rw [quantityOf, firstSlot_of_lowest hid hlow]

theorem quantityOf_of_not_held {slots : Vector Item 15} {id : ItemId} (h : ∀ s : Fin 15, slots[s].id ≠ id) :
    quantityOf slots id = 0 := by
  rw [quantityOf, firstSlot_of_not_held h]

/-- The quantities of one character (R131). -/
def packSlotQuantities (cfg : Params) (slots : Vector Item 15) : List Bool :=
  cfg.stack.toList.flatMap fun id => bitsOfReg (quantityOf slots id)

theorem packQuantities_eq_flatMap (cfg : Params) (ss : SaveState) :
    packQuantities cfg ss = ss.item.toList.flatMap (packSlotQuantities cfg) := rfl

@[simp] theorem length_packSlotQuantities (cfg : Params) (slots : Vector Item 15) :
    (packSlotQuantities cfg slots).length = 115 := by
  rw [packSlotQuantities, length_flatMap_of_const fun id _ => length_bitsOfReg _, Vector.length_toList]

@[simp] theorem length_packQuantities (cfg : Params) (ss : SaveState) : (packQuantities cfg ss).length = 460 := by
  rw [packQuantities_eq_flatMap, length_flatMap_of_const fun slots _ => length_packSlotQuantities cfg slots,
    Vector.length_toList]

/-- R131: the field of character `c` and stackable item `k`. -/
theorem segmentAt_packQuantities (cfg : Params) (ss : SaveState) (c : Fin 4) (k : Fin 23) :
    SegmentAt (packQuantities cfg ss) (5 * (23 * c.val + k.val)) (bitsOfReg (quantityOf ss.item[c] cfg.stack[k])) := by
  have hchar := segmentAt_flatMap_of_const (l := ss.item.toList) (i := c.val)
    (fun slots _ => length_packSlotQuantities cfg slots) (by simp)
  have hfield := segmentAt_flatMap_of_const (l := cfg.stack.toList) (i := k.val)
    (fun id _ => length_bitsOfReg (quantityOf ss.item[c] id)) (by simp)
  have hboth := hchar.trans (by simpa [packSlotQuantities] using hfield)
  simpa [packQuantities_eq_flatMap, show 115 * c.val + 5 * k.val = 5 * (23 * c.val + k.val) by ring] using hboth

end Sys2Proof.Machine
end

section
/-! Where each part stands in the payload of a grade (R122, R135), and the two commands on payloads, `PACK` (R143) and
`UNPACK` (R144). -/

set_option autoImplicit false

namespace Sys2Proof.Machine

/-! ### The payload of each grade (R122) -/

/-- The parts that Gold alone carries (R128 to R132). -/
def packGoldParts (cfg : Params) (ss : SaveState) : List Bool :=
  List.replicate 8 false ++ packItems ss ++ packQuantities cfg ss ++ bitsOfReg ss.coins

theorem packFields_bronze (cfg : Params) (ss : SaveState) :
    packFields cfg ss .bronze = packHead ss ++ packEvents ss ++ packBitmap cfg ss := by
  simp [packFields, hasBitmap, hasStats, hasItems]

theorem packFields_silver (cfg : Params) (ss : SaveState) :
    packFields cfg ss .silver = packHead ss ++ packEvents ss ++ packBitmap cfg ss ++ ss.stat.toList.flatMap packStats := by
  simp [packFields, hasBitmap, hasStats, hasItems]

theorem packFields_gold (cfg : Params) (ss : SaveState) :
    packFields cfg ss .gold = packHead ss ++ packEvents ss ++ ss.stat.toList.flatMap packStats ++ packGoldParts cfg ss := by
  simp [packFields, hasBitmap, hasStats, hasItems, packGoldParts]

@[simp] theorem length_packGoldParts (cfg : Params) (ss : SaveState) : (packGoldParts cfg ss).length = 1040 := by
  simp [packGoldParts]

@[simp] theorem length_packFields_gold (cfg : Params) (ss : SaveState) : (packFields cfg ss .gold).length = 1344 := by
  simp [packFields_gold]

theorem length_packFields_le (cfg : Params) (ss : SaveState) (g : Grade) :
    (packFields cfg ss g).length ≤ 8 * g.payloadBytes := by
  cases g with
  | bronze => simp [packFields_bronze, Grade.payloadBytes]
  | silver => simp [packFields_silver, Grade.payloadBytes]
  | gold => simp [Grade.payloadBytes]

/-- R122: the padding fills the payload to its declared size. -/
@[simp] theorem length_pack (cfg : Params) (ss : SaveState) (g : Grade) : (pack cfg ss g).length = 8 * g.payloadBytes := by
  rw [pack, List.length_append, List.length_replicate, Nat.add_sub_cancel' (length_packFields_le cfg ss g)]

/-- What stands in the fields stands in the payload: the padding comes behind them (R133). -/
theorem segmentAt_pack {cfg : Params} {ss : SaveState} {g : Grade} {a : Nat} {part : List Bool}
    (h : SegmentAt (packFields cfg ss g) a part) : SegmentAt (pack cfg ss g) a part :=
  h.append _

/-- R133: the padding is 0. -/
theorem bitAt_pack_padding (cfg : Params) (ss : SaveState) (g : Grade) {p : Nat} (h : (packFields cfg ss g).length ≤ p) :
    bitAt (pack cfg ss g) p = false := by
  rw [pack, bitAt_append, if_neg (by omega)]
  simp [bitAt_eq]

/-! ### The positions of the parts (R135) -/

section
variable (cfg : Params) (ss : SaveState)

theorem segmentAt_pack_head (g : Grade) : SegmentAt (pack cfg ss g) 0 (packHead ss) :=
  segmentAt_pack (((((segmentAt_self _).append _).append _).append _).append _)

theorem segmentAt_pack_events (g : Grade) : SegmentAt (pack cfg ss g) 56 (packEvents ss) :=
  segmentAt_pack ((((segmentAt_append_right (length_packHead ss) _).append _).append _).append _)

theorem segmentAt_pack_bitmap {g : Grade} (hg : g ≠ .gold) : SegmentAt (pack cfg ss g) 64 (packBitmap cfg ss) := by
  cases g with
  | bronze =>
    refine segmentAt_pack ?_
    rw [packFields_bronze]
    exact segmentAt_append_right (by simp) _
  | silver =>
    refine segmentAt_pack ?_
    rw [packFields_silver]
    exact (segmentAt_append_right (by simp) _).append _
  | gold => exact absurd rfl hg

/-- R127: the stats stand behind the bitmap, which Gold does not have. -/
theorem segmentAt_pack_stats {g : Grade} (hg : g ≠ .bronze) (c : Fin 4) :
    SegmentAt (pack cfg ss g) ((if g = .gold then 64 else 72) + 60 * c.val) (packStats ss.stat[c]) := by
  refine SegmentAt.trans (segmentAt_pack ?_) (segmentAt_flatMap_packStats ss.stat c)
  cases g with
  | bronze => exact absurd rfl hg
  | silver =>
    rw [packFields_silver]
    exact segmentAt_append_right (by simp) _
  | gold =>
    rw [packFields_gold]
    exact (segmentAt_append_right (by simp) _).append _

theorem segmentAt_pack_goldParts : SegmentAt (pack cfg ss .gold) 304 (packGoldParts cfg ss) := by
  refine segmentAt_pack ?_
  rw [packFields_gold]
  exact segmentAt_append_right (by simp) _

/-- R128: the zero byte. -/
theorem segmentAt_pack_zeroByte : SegmentAt (pack cfg ss .gold) 304 (bitsOfReg (0 : BitVec 8)) :=
  (segmentAt_pack_goldParts cfg ss).trans ((((segmentAt_self _).append _).append _).append _)

theorem segmentAt_pack_items : SegmentAt (pack cfg ss .gold) 312 (packItems ss) :=
  (segmentAt_pack_goldParts cfg ss).trans (((segmentAt_append_right (a := 8) (by simp) _).append _).append _)

theorem segmentAt_pack_quantities : SegmentAt (pack cfg ss .gold) 860 (packQuantities cfg ss) :=
  (segmentAt_pack_goldParts cfg ss).trans ((segmentAt_append_right (a := 556) (by simp) _).append _)

theorem segmentAt_pack_coins : SegmentAt (pack cfg ss .gold) 1320 (bitsOfReg ss.coins) :=
  (segmentAt_pack_goldParts cfg ss).trans (segmentAt_append_right (a := 1016) (by simp) _)

end

/-! ### The registers of the head in the payload (R124) -/

/-- The level of character `c`, the highest character first. -/
theorem segmentAt_pack_level (cfg : Params) (ss : SaveState) (g : Grade) (c : Fin 4) :
    SegmentAt (pack cfg ss g) (7 * (3 - c.val)) (bitsOfReg ss.level[c]) := by
  simpa using ((segmentAt_pack_head cfg ss g).trans (segmentAt_packHead_level ss)).trans (segmentAt_headBlock ss.level c)

/-- Positions 28 to 31 hold the last 4 bits of the companions block. -/
theorem bitAt_pack_comp_low (cfg : Params) (ss : SaveState) (g : Grade) {i : Nat} (h : i < 4) :
    bitAt (pack cfg ss g) (28 + i) = bitAt (headBlock ss.comp) (24 + i) := by
  have hat := (segmentAt_pack_head cfg ss g).trans (segmentAt_packHead_comp_low ss)
  rw [← bitAt_drop (headBlock ss.comp), ← hat.bitAt_eq (by simpa using h), Nat.zero_add]

/-- Positions 32 to 55 hold the first 24 bits of the companions block. -/
theorem bitAt_pack_comp_high (cfg : Params) (ss : SaveState) (g : Grade) {q : Nat} (h : q < 24) :
    bitAt (pack cfg ss g) (32 + q) = bitAt (headBlock ss.comp) q := by
  have hat := (segmentAt_pack_head cfg ss g).trans (segmentAt_packHead_comp_high ss)
  rw [← bitAt_take _ h, ← hat.bitAt_eq (by simpa using h), Nat.zero_add]

/-! ### `PACK` (R143) -/

theorem exec_pack_zero (s : State) : exec (.pack 0) s = .next (s.failed .illegal) := rfl

theorem exec_pack_code (s : State) (g : Grade) :
    exec (.pack g.code) s = .next ((s.packed g).ok (dataOf (8 * g.payloadBytes))) := by
  show execPack g.code s = _
  rw [execPack, gradeOfCode_code]
  rfl

/-! ### `UNPACK` (R144) -/

theorem exec_unpack_zero (s : State) : exec (.unpack 0) s = .next (s.failed .illegal) := rfl

theorem exec_unpack_code (s : State) (g : Grade) : exec (.unpack g.code) s = .next ((s.unpacked g).ok 0) := by
  show execUnpack g.code s = _
  rw [execUnpack, gradeOfCode_code]
  rfl

/-- Where `HEAD_PERM` puts bit `j` of the two head blocks (R136). -/
theorem idxOf_headPerm : ∀ j < 56, headPerm.idxOf j = if j < 28 then j else if j < 52 then j + 4 else j - 24 := by
  decide

theorem bitAt_unpackHead (ba : List Bool) {j : Nat} (h : j < 56) : bitAt (unpackHead ba) j = bitAt ba (headPerm.idxOf j) := by
  have hlen : j < (unpackHead ba).length := by simpa [unpackHead, headPerm] using h
  rw [bitAt_eq, dif_pos hlen]
  simp [unpackHead]

@[simp] theorem length_unpackHead (ba : List Bool) : (unpackHead ba).length = 56 := by simp [unpackHead, headPerm]

/-- R136: `L = MemRead(0, 28)`. -/
theorem take_unpackHead (ba : List Bool) : (unpackHead ba).take 28 = readBits ba 0 28 := by
  refine stream_ext (by simp) fun j hj => ?_
  have hj28 : j < 28 := by simpa using hj
  rw [bitAt_take _ hj28, bitAt_unpackHead ba (by omega), idxOf_headPerm j (by omega), if_pos hj28, bitAt_readBits]
  simp [hj28]

/-- R136: the high 24 bits of the companions, then their low 4. -/
theorem drop_unpackHead (ba : List Bool) : (unpackHead ba).drop 28 = readBits ba 32 24 ++ readBits ba 28 4 := by
  refine stream_ext (by simp) fun j hj => ?_
  have hj28 : j < 28 := by simpa using hj
  rw [bitAt_drop, bitAt_unpackHead ba (by omega), idxOf_headPerm _ (by omega), if_neg (by omega), bitAt_append,
    length_readBits, bitAt_readBits, bitAt_readBits]
  by_cases hhigh : j < 24
  · simp [hhigh, show 28 + j < 52 by omega, show 28 + j + 4 = 32 + j by omega]
  · simp [hhigh, show ¬ 28 + j < 52 by omega, show 28 + j - 24 = 28 + (j - 24) by omega, show j - 24 < 4 by omega]

/-- R136: `C = (MemRead(32, 24) << 4) | MemRead(28, 4)`. -/
theorem valueOf_drop_unpackHead (ba : List Bool) :
    valueOf ((unpackHead ba).drop 28) = memRead ba 32 24 <<< 4 ||| memRead ba 28 4 := by
  rw [drop_unpackHead, valueOf_append, length_readBits, ← Nat.shiftLeft_eq]
  exact Nat.shiftLeft_add_eq_or_of_lt (memRead_lt ba 28 4) _

/-- R136: register `i` of a block is `L[7i+6 : 7i]`. -/
theorem toNat_registersOfBlock (block : List Bool) (i : Fin 4) :
    (registersOfBlock block)[i].toNat = valueOf block >>> (7 * i.val) % 128 := by
  simp [registersOfBlock]

/-- R137: the stats of character `c` at their offsets, above Bronze. -/
theorem getElem_unpackAllStats {g : Grade} (hg : g ≠ .bronze) (cfg : Params) (ba : List Bool) (c : Fin 4) :
    (unpackAllStats cfg g ba)[c] = unpackStats g ba c.val := by
  have hstats : hasStats g = true := by cases g <;> trivial
  simp [unpackAllStats, hstats]

/-- R137: the six fields of one character. -/
theorem toNat_unpackStats (g : Grade) (ba : List Bool) (c : Nat) :
    let base := statBase g + 60 * c
    (unpackStats g ba c).hp.toNat = memRead ba base 11 ∧ (unpackStats g ba c).rp.toNat = memRead ba (base + 11) 11 ∧
      (unpackStats g ba c).attack.toNat = memRead ba (base + 22) 10 ∧
      (unpackStats g ba c).defense.toNat = memRead ba (base + 32) 10 ∧
      (unpackStats g ba c).agility.toNat = memRead ba (base + 42) 10 ∧
      (unpackStats g ba c).luck.toNat = memRead ba (base + 52) 8 := by
  simp [unpackStats, statOffset]

theorem statBase_eq (g : Grade) : statBase g = if g = .gold then 64 else 72 := by
  cases g <;> rfl

end Sys2Proof.Machine
end

section
/-! The statements about the SaveState registers and the grade schema. -/

set_option autoImplicit false

namespace Sys2Proof.Machine

/-- Settles O27: for each kind of register, the values that fit it; then the reads after the write. -/
theorem sswrWritesOneRegister : Obligations.SswrWritesOneRegister := by
  intro s sel v
  refine ⟨fun h => exec_sswr_of_reserved h v s, fun r hsel => ?_⟩
  cases r with
  | level c => exact exec_sswr_of_fits_iff hsel accepts_level s
  | comp e => exact exec_sswr_of_fits_iff hsel accepts_comp s
  | event k => exact exec_sswr_of_fits_iff hsel accepts_event s
  | coins => exact exec_sswr_of_fits_iff hsel accepts_coins s
  | stat c f => cases f <;> exact exec_sswr_of_fits_iff hsel accepts_stat s
  | item c k => exact exec_sswr_of_fits_iff hsel accepts_item s

/-- Settles O28: the response is the register's read, field by field. -/
theorem ssrdReadsTheRegister : Obligations.SsrdReadsTheRegister := by
  intro s sel
  refine ⟨fun h => exec_ssrd_of_reserved h s, fun r hsel => ?_⟩
  rw [exec_ssrd_of_register hsel]
  refine congrArg (fun d => Host.Outcome.next (s.ok d)) ?_
  cases r with
  | stat c f => cases f <;> simp [SaveState.read, readStat]
  | item c k => simp [SaveState.read, ← toNat_dataOfItem]
  | _ => simp [SaveState.read, dataOf]

/-- Settles O29: the length of the payload, and the one effect of the command. -/
theorem packFillsTheAccumulator : Obligations.PackFillsTheAccumulator :=
  fun s => ⟨exec_pack_zero s, fun g => ⟨length_pack s.cfg s.ss g, exec_pack_code s g⟩⟩

/-- Settles O30: the bits of the registers and slots in the parts that stand at 0 and at 56. -/
theorem packedHeadAndEvents : Obligations.PackedHeadAndEvents := by
  intro cfg ss g
  have hevent : ∀ k < 8, bitAt (pack cfg ss g) (56 + k) = bitAt (packEvents ss) k := fun k hk =>
    (segmentAt_pack_events cfg ss g).bitAt_eq (by simpa using hk)
  refine ⟨fun c j hj => ?_, fun j hj => ?_, fun c j hj hhigh => ?_, fun k => ?_, ?_, ?_⟩
  · exact (segmentAt_pack_level cfg ss g c).bitAt_reg hj
  · have hreg := (segmentAt_headBlock ss.comp 0).bitAt_reg (j := j) (by omega)
    rw [show 31 - j = 28 + (3 - j) by omega, bitAt_pack_comp_low cfg ss g (by omega)]
    exact .trans (congrArg (bitAt _) (by simp only [Fin.val_zero]; omega)) hreg
  · rw [Nat.add_assoc, bitAt_pack_comp_high cfg ss g (by omega)]
    exact (segmentAt_headBlock ss.comp c).bitAt_reg hj
  · rw [hevent k (by omega), bitAt_packEvents]
  · exact (hevent 6 (by decide)).trans (bitAt_packEvents_of_ge ss (by decide))
  · exact (hevent 7 (by decide)).trans (bitAt_packEvents_of_ge ss (by decide))

/-- Settles O31: the bits of the bitmap part, and the reads of the stats part. -/
theorem packedBitmapAndStats : Obligations.PackedBitmapAndStats := by
  intro cfg ss g
  refine ⟨fun hg k => ?_, fun hg c => (segmentAt_pack_stats cfg ss hg c).memRead_packStats⟩
  rw [(segmentAt_pack_bitmap cfg ss hg).bitAt_eq (by simp), bitAt_packBitmap, holdsId_iff]

/-- Settles O32: the reads of the parts that Gold alone carries. -/
theorem packedGoldItemsQuantitiesCoins : Obligations.PackedGoldItemsQuantitiesCoins := by
  intro cfg ss
  have hquantity : ∀ c : Fin 4, ∀ k : Fin 23, memRead (pack cfg ss .gold) (860 + 5 * (23 * c.val + k.val)) 5 =
      (quantityOf ss.item[c] cfg.stack[k]).toNat := fun c k =>
    ((segmentAt_pack_quantities cfg ss).trans (segmentAt_packQuantities cfg ss c k)).memRead_reg
  refine ⟨(segmentAt_pack_zeroByte cfg ss).memRead_reg, fun c s => ?_, fun m hm => ?_, fun c k s hid hlow => ?_,
    fun c k hnone => ?_, (segmentAt_pack_coins cfg ss).memRead_reg, fun p hp => ?_⟩
  · rw [Nat.add_assoc]
    exact ((segmentAt_pack_items cfg ss).trans (segmentAt_packItems_id ss c s)).memRead_reg
  · have hsync := (segmentAt_pack_items cfg ss).bitAt_eq (k := 63 + 64 * m) (by simp; omega)
    rw [← Nat.add_assoc] at hsync
    exact hsync.trans (bitAt_packItems_sync ss hm)
  · rw [hquantity, quantityOf_of_lowest hid hlow]
  · rw [hquantity, quantityOf_of_not_held hnone]
    rfl
  · exact bitAt_pack_padding cfg ss .gold (by simpa using hp)

/-- Settles O33: the reads of R136 and R137, field by field. -/
theorem unpackReadsTheFields : Obligations.UnpackReadsTheFields := by
  intro s
  refine ⟨exec_unpack_zero s, fun g => ⟨unpack s.cfg g s.ba, exec_unpack_code s g, fun i => ?_, fun i => ?_, fun k => ?_,
    fun hg => ?_, fun hg c => ?_, fun hg => ?_, fun hg => ?_, fun hg => ?_⟩⟩
  · exact (toNat_registersOfBlock _ i).trans (by rw [take_unpackHead, memRead])
  · exact (toNat_registersOfBlock _ i).trans (by rw [valueOf_drop_unpackHead])
  · rw [memRead_one]
    simp [unpack, eventBase]
  · subst hg; rfl
  · have hstat : (unpack s.cfg g s.ba).stat[c] = unpackStats g s.ba c.val := getElem_unpackAllStats hg s.cfg s.ba c
    rw [hstat, ← statBase_eq]
    exact toNat_unpackStats g s.ba c.val
  · subst hg; rfl
  · subst hg; rfl
  · subst hg; exact toNat_memReadReg ..

end Sys2Proof.Machine
end

section
/-! The checksum cipher's functions (R150): one round of `CrcByte` as the remainder of a round on natural numbers (R152), and
the bytes of a stream after the exclusive or (R52, R153, R154). -/

set_option autoImplicit false

namespace Sys2Proof.Machine

/-! ### `CrcByte` on natural numbers (R152) -/

/-- One round of R152 without its mask: shift left, and add the constant when bit 15 was set. -/
def crcNatRound (x : Nat) : Nat := if x.testBit 15 then (x <<< 1) + crcAdd else x <<< 1

/-- A round reads no more than the low 16 bits of its operand: the shift and the addition carry upward only (R25). -/
theorem ofNat_crcNatRound (x : Nat) : BitVec.ofNat 16 (crcNatRound x) = crcRound (BitVec.ofNat 16 x) := by
  have hout : (BitVec.ofNat 16 x).getLsbD 15 = x.testBit 15 := BitVec.getLsbD_ofNat 16 x 15
  refine BitVec.eq_of_toNat_eq ?_
  simp only [crcNatRound, crcRound, hout, BitVec.toNat_ofNat, Nat.shiftLeft_eq]
  split <;> omega

/-- The mask of R152 keeps what the 16-bit register holds. -/
theorem ofNat_and_mask (x : Nat) : BitVec.ofNat 16 (x &&& 0xFFFF) = BitVec.ofNat 16 x := by
  refine BitVec.eq_of_toNat_eq ?_
  rw [BitVec.toNat_ofNat, BitVec.toNat_ofNat, show 0xFFFF = 2 ^ 16 - 1 from rfl, Nat.and_two_pow_sub_one_eq_mod, Nat.mod_mod]

theorem crcRounds_eq_iterate (n : Nat) (r : BitVec 16) : crcRounds n r = crcRound^[n] r := by
  induction n generalizing r with
  | zero => rfl
  | succ n ih => exact ih (crcRound r)

/-- The operand of the rounds, as a natural number. -/
theorem crcByte_operand (r : BitVec 16) (b : Byte) :
    r ^^^ (b.setWidth 16 <<< 8) = BitVec.ofNat 16 (r.toNat ^^^ (b.toNat <<< 8)) := by
  have hfit : b.toNat <<< 8 < 2 ^ 16 := by rw [Nat.shiftLeft_eq]; omega
  refine BitVec.eq_of_toNat_eq ?_
  rw [BitVec.toNat_ofNat, Nat.mod_eq_of_lt (Nat.xor_lt_two_pow r.isLt hfit), BitVec.toNat_xor, BitVec.toNat_shiftLeft,
    BitVec.toNat_setWidth, Nat.mod_eq_of_lt (b.isLt.trans (by decide)), Nat.mod_eq_of_lt hfit]

/-- Any function on natural numbers that is a round on the low 16 bits computes `CrcByte`. -/
theorem crcByte_eq_ofNat_iterate {f : Nat → Nat} (hf : ∀ x, BitVec.ofNat 16 (f x) = crcRound (BitVec.ofNat 16 x))
    (r : BitVec 16) (b : Byte) : crcByte r b = BitVec.ofNat 16 (f^[8] (r.toNat ^^^ (b.toNat <<< 8))) := by
  rw [crcByte, crcRounds_eq_iterate, crcByte_operand]
  exact (Function.Semiconj.iterate_right (f := BitVec.ofNat 16) hf 8 _).symm

/-! ### Bytes of the stream (R52) -/

theorem getLsbD_byteAt (ba : List Bool) (i : Nat) {k : Nat} (h : k < 8) :
    (byteAt ba i).getLsbD k = bitAt ba (8 * i + (7 - k)) := by
  rw [byteAt, getLsbD_memReadReg, decide_eq_true h, Bool.true_and]

/-- A byte that lies in the first part of a concatenation. -/
theorem byteAt_append_left {l : List Bool} (l' : List Bool) {i : Nat} (h : 8 * i + 8 ≤ l.length) :
    byteAt (l ++ l') i = byteAt l i := by
  refine BitVec.eq_of_getLsbD_eq fun k hk => ?_
  rw [getLsbD_byteAt _ _ hk, getLsbD_byteAt _ _ hk, bitAt_append, if_pos (by omega)]

/-- A byte that was pushed as a field at its place. -/
theorem SegmentAt.byteAt_eq {ba : List Bool} {i : Nat} {b : Byte} (h : SegmentAt ba (8 * i) (bitsOfReg b)) :
    byteAt ba i = b :=
  BitVec.eq_of_toNat_eq ((toNat_memReadReg ba (8 * i) 8).trans h.memRead_reg)

/-- The exclusive or on the first `m` bytes, byte by byte. -/
theorem byteAt_xorBytes (lo : Byte) {m i : Nat} {ba : List Bool} (hi : i < m) (hm : 8 * m ≤ ba.length) :
    byteAt (xorBytes lo m ba) i = byteAt ba i ^^^ lo := by
  refine BitVec.eq_of_getLsbD_eq fun k hk => ?_
  have hbit : 7 - (8 * i + (7 - k)) % 8 = k := by omega
  rw [BitVec.getLsbD_xor, getLsbD_byteAt _ _ hk, getLsbD_byteAt _ _ hk, bitAt_xorBytes, if_pos (by omega), hbit]

/-- Behind the first `m` bytes nothing changes. -/
theorem bitAt_xorBytes_of_le (lo : Byte) {m p : Nat} (ba : List Bool) (h : 8 * m ≤ p) :
    bitAt (xorBytes lo m ba) p = bitAt ba p := by
  rw [bitAt_xorBytes, if_neg (by omega)]

theorem eight_mul_wholeBytes_le (ba : List Bool) : 8 * wholeBytes ba ≤ ba.length := Nat.mul_div_le _ _

/-- A stream of whole bytes ends where its last byte ends. -/
theorem length_of_aligned {ba : List Bool} (h : ba.length % 8 = 0) : ba.length = 8 * wholeBytes ba :=
  (Nat.mul_div_cancel' (Nat.dvd_of_mod_eq_zero h)).symm

/-! ### `Encrypt` (R153) -/

/-- The bytes of the stream are exclusive-ored with keyLo. -/
theorem byteAt_encrypt {ba : List Bool} (k : BitVec 16) {i : Nat} (h : i < wholeBytes ba) :
    byteAt (encrypt ba k) i = byteAt ba i ^^^ keyLo k := by
  have hwhole := eight_mul_wholeBytes_le ba
  have hinside : 8 * i + 8 ≤ (xorBytes (keyLo k) (wholeBytes ba) ba).length := by rw [length_xorBytes]; omega
  rw [encrypt, List.append_assoc, byteAt_append_left _ hinside, byteAt_xorBytes _ h hwhole]

/-- The first appended byte is keyHi, treated as the bytes of the stream are. -/
theorem byteAt_encrypt_keyHi {ba : List Bool} (k : BitVec 16) (h : ba.length % 8 = 0) :
    byteAt (encrypt ba k) (wholeBytes ba) = keyHi k ^^^ keyLo k :=
  SegmentAt.byteAt_eq ((segmentAt_append_right (by rw [length_xorBytes, length_of_aligned h]) _).append _)

/-- The second appended byte is keyLo in clear. -/
theorem byteAt_encrypt_keyLo {ba : List Bool} (k : BitVec 16) (h : ba.length % 8 = 0) :
    byteAt (encrypt ba k) (wholeBytes ba + 1) = keyLo k := by
  refine SegmentAt.byteAt_eq (segmentAt_append_right ?_ _)
  rw [List.length_append, length_xorBytes, length_bitsOfReg, Nat.mul_succ, ← length_of_aligned h]

/-! ### `Decrypt` (R154) -/

/-- Every whole byte but the last is exclusive-ored with the last. -/
theorem byteAt_decrypt {ba : List Bool} {i : Nat} (h : i < wholeBytes ba - 1) :
    byteAt (decrypt ba) i = byteAt ba i ^^^ lastByte ba := by
  have hwhole := eight_mul_wholeBytes_le ba
  exact byteAt_xorBytes _ h (by omega)

/-- The last whole byte and the trailing bits stay. -/
theorem bitAt_decrypt_of_le {ba : List Bool} {p : Nat} (h : 8 * (wholeBytes ba - 1) ≤ p) :
    bitAt (decrypt ba) p = bitAt ba p :=
  bitAt_xorBytes_of_le _ ba h

end Sys2Proof.Machine
end

section
/-! The commands of the checksum cipher (42_checksum_cipher.md, section 2): one equation per case of each command. -/

set_option autoImplicit false

namespace Sys2Proof.Machine

/-! ### `CRCINIT`, `CRCUPD`, `CRCFIN` (R155 to R157) -/

theorem exec_crcinit (s : State) : exec .crcinit s = .next ((s.setCrc 0xFFFF).ok 0xFFFF) := rfl

theorem exec_crcupd (b : Byte) (s : State) :
    exec (.crcupd b) s = .next ((s.setCrc (crcByte s.crc b)).ok ((crcByte s.crc b).setWidth 32)) := rfl

theorem exec_crcfin (s : State) : exec .crcfin s = .next ((s.setKey (~~~s.crc)).ok ((~~~s.crc).setWidth 32)) := rfl

/-- `CRCUPD` of bytes in order, then `CRCFIN`: the register runs through the bytes, and only the last response stays. -/
theorem runCommands_crcupd_crcfin (bs : List Byte) (s : State) :
    runCommands (bs.map .crcupd ++ [.crcfin]) s = exec .crcfin (s.setCrc (crcBytes s.crc bs)) := by
  induction bs generalizing s with
  | nil => rfl
  | cons b bs ih =>
    calc runCommands ((b :: bs).map .crcupd ++ [.crcfin]) s
      _ = runCommands (bs.map .crcupd ++ [.crcfin])
            ((s.setCrc (crcByte s.crc b)).ok ((crcByte s.crc b).setWidth 32)) := by
          rw [List.map_cons, List.cons_append, runCommands, exec_crcupd]
      _ = exec .crcfin (s.setCrc (crcBytes s.crc (b :: bs))) := ih _

/-! ### `KEYGEN` (R158) -/

theorem exec_keygen_of_inside {m : Pos} {s : State} (h : 8 * m.toNat ≤ s.ba.length) :
    exec (.keygen m) s = .next ((s.keyed m.toNat).ok ((s.keyed m.toNat).key.setWidth 32)) :=
  if_neg (Nat.not_lt.2 h)

theorem exec_keygen_of_outside {m : Pos} {s : State} (h : s.ba.length < 8 * m.toNat) :
    exec (.keygen m) s = .next (s.failed .range) :=
  if_pos h

/-- R158: the sequence that `KEYGEN` stands for. -/
theorem runCommands_keygen_steps (m : Nat) (s : State) :
    runCommands (.crcinit :: (List.range m).map (fun i => .crcupd (byteAt s.ba i)) ++ [.crcfin]) s =
      .next ((s.keyed m).ok ((s.keyed m).key.setWidth 32)) := by
  have hbytes : (List.range m).map (fun i => Instr.crcupd (byteAt s.ba i)) = (bytesOf s.ba m).map .crcupd := by
    rw [bytesOf, List.map_map]
    rfl
  rw [hbytes, List.cons_append, runCommands, exec_crcinit]
  exact runCommands_crcupd_crcfin (bytesOf s.ba m) _

/-! ### `ENCR` (R159) -/

theorem exec_encr_of_fits {s : State} (halign : s.ba.length % 8 = 0) (hfit : s.ba.length + 16 ≤ 2048) :
    exec .encr s = .next (s.encrypted.ok (BitVec.ofNat 32 (s.ba.length + 16))) := by
  rw [← length_encrypt s.ba s.key]
  exact (if_neg (not_not.2 halign)).trans (if_neg (Nat.not_lt.2 hfit))

theorem exec_encr_of_unaligned {s : State} (h : s.ba.length % 8 ≠ 0) : exec .encr s = .next (s.failed .align) :=
  if_pos h

theorem exec_encr_of_overflow {s : State} (halign : s.ba.length % 8 = 0) (hfull : 2048 < s.ba.length + 16) :
    exec .encr s = .next (s.failed .cap) :=
  (if_neg (not_not.2 halign)).trans (if_pos hfull)

/-! ### `DECR` (R160) -/

theorem exec_decr_of_two_le {s : State} (h : 2 ≤ wholeBytes s.ba) :
    exec .decr s = .next (s.decrypted.ok ((recoveredKey s.ba).setWidth 32)) :=
  if_neg (Nat.not_lt.2 h)

theorem exec_decr_of_lt_two {s : State} (h : wholeBytes s.ba < 2) : exec .decr s = .next (s.failed .range) :=
  if_pos h

end Sys2Proof.Machine
end

section
/-! The statements about the checksum cipher. -/

set_option autoImplicit false

namespace Sys2Proof.Machine

/-- Settles O36: the round of the pseudocode, with its mask and without, is a round on the low 16 bits. -/
theorem crcByteAddsWithCarries : Obligations.CrcByteAddsWithCarries := by
  intro r b
  have hmasked : ∀ x, BitVec.ofNat 16 (crcNatRound x &&& 0xFFFF) = crcRound (BitVec.ofNat 16 x) := fun x =>
    (ofNat_and_mask _).trans (ofNat_crcNatRound x)
  exact ⟨crcByte_eq_ofNat_iterate hmasked r b, crcByte_eq_ofNat_iterate ofNat_crcNatRound r b⟩

/-- Settles O37: the equations of the three commands. -/
theorem crcRegisterCommands : Obligations.CrcRegisterCommands :=
  fun s => ⟨exec_crcinit s, fun b => exec_crcupd b s, exec_crcfin s⟩

/-- Settles O38: the command and its sequence answer the same keyed state. -/
theorem keygenEqualsItsSteps : Obligations.KeygenEqualsItsSteps := by
  intro s m
  refine ⟨fun hinside => ⟨crcBytes crcInit (bytesOf s.ba m.toNat), exec_keygen_of_inside hinside, ?_⟩,
    exec_keygen_of_outside⟩
  rw [exec_keygen_of_inside hinside, runCommands_keygen_steps]

/-- Settles O39: the framed stream byte by byte, and the two refusals in their order. -/
theorem encrFramesTheStream : Obligations.EncrFramesTheStream := by
  intro s
  exact ⟨fun halign hfit => ⟨encrypt s.ba s.key, exec_encr_of_fits halign hfit, length_encrypt s.ba s.key,
      fun _ hi => byteAt_encrypt s.key hi, byteAt_encrypt_keyHi s.key halign, byteAt_encrypt_keyLo s.key halign⟩,
    exec_encr_of_unaligned, exec_encr_of_overflow⟩

/-- Settles O40: the bytes below the last, the cells from the last byte on, and the key pair read afterwards. -/
theorem decrRecoversTheStream : Obligations.DecrRecoversTheStream := by
  intro s
  exact ⟨fun htwo => ⟨decrypt s.ba, recoveredKey s.ba, exec_decr_of_two_le htwo, length_decrypt s.ba,
      fun _ hi => byteAt_decrypt hi, fun _ hp => bitAt_decrypt_of_le hp, rfl⟩,
    exec_decr_of_lt_two⟩

end Sys2Proof.Machine
end

section
/-! The regrouper's functions (R170) by position: where `Regroup` puts data groups and line checksum groups (R171), which
groups `Ungroup` keeps (R173), and what groups and streams have to do with each other (R54). -/

set_option autoImplicit false

namespace Sys2Proof.Machine

/-! ### Lines of the regrouped stream (R171) -/

/-- A line that is completed, from its running sum on: its groups, the sum of the nine, and a new line. -/
theorem insertChecks_append (sum : Group) {cnt : Nat} {line : List Group} (hcnt : cnt < lineLength)
    (h : cnt + line.length = lineLength) (rest : List Group) :
    insertChecks sum cnt (line ++ rest) = line ++ (sum + line.sum) :: insertChecks 0 0 rest := by
  induction line generalizing sum cnt with
  | nil => exact absurd h hcnt.ne
  | cons d ds ih =>
    rw [List.length_cons] at h
    rw [List.cons_append, insertChecks]
    split
    · obtain rfl : ds = [] := List.length_eq_zero_iff.1 (by omega)
      simp
    · rw [ih _ (by omega) (by omega), List.sum_cons, add_assoc, List.cons_append]

/-- A partial line gets no checksum group. -/
theorem insertChecks_of_short (sum : Group) {cnt : Nat} {gs : List Group} (h : cnt + gs.length < lineLength) :
    insertChecks sum cnt gs = gs := by
  induction gs generalizing sum cnt with
  | nil => rfl
  | cons d ds ih =>
    rw [List.length_cons] at h
    rw [insertChecks, if_neg (by omega), ih _ (by omega)]

/-- The first line, when there is a whole one, and the rest. -/
theorem insertChecks_eq_line {gs : List Group} (h : 9 ≤ gs.length) :
    insertChecks 0 0 gs = gs.take 9 ++ (gs.take 9).sum :: insertChecks 0 0 (gs.drop 9) := by
  have hlen : (gs.take 9).length = 9 := List.length_take_of_le h
  have hline := insertChecks_append 0 (cnt := 0) (by decide) (by rw [hlen]; rfl) (gs.drop 9)
  rwa [List.take_append_drop, zero_add] at hline

/-- Line `k` of the output is made of line `k` of the data. -/
theorem drop_insertChecks (k : Nat) (gs : List Group) :
    (insertChecks 0 0 gs).drop (10 * k) = insertChecks 0 0 (gs.drop (9 * k)) := by
  induction k generalizing gs with
  | zero => rfl
  | succ k ih =>
    have hfirst : (insertChecks 0 0 gs).drop 10 = insertChecks 0 0 (gs.drop 9) := by
      by_cases h : 9 ≤ gs.length
      · rw [insertChecks_eq_line h, List.drop_append]
        simp [h]
      · rw [insertChecks_of_short 0 (by simp only [lineLength]; omega), List.drop_of_length_le (by omega),
          List.drop_of_length_le (by omega)]
        rfl
    rw [show 10 * (k + 1) = 10 + 10 * k by ring, show 9 * (k + 1) = 9 + 9 * k by ring, ← List.drop_drop, hfirst, ih,
      List.drop_drop]

/-- The data groups of the first line stand where they stood. -/
theorem getElem?_insertChecks_of_lt (gs : List Group) {r : Nat} (hr : r < 9) : (insertChecks 0 0 gs)[r]? = gs[r]? := by
  by_cases h : 9 ≤ gs.length
  · rw [insertChecks_eq_line h, List.getElem?_append_left (by rw [List.length_take_of_le h]; exact hr),
      List.getElem?_take_of_lt hr]
  · rw [insertChecks_of_short 0 (by simp only [lineLength]; omega)]

/-- At an index `i` with `i mod 10 ≠ 9` stands the data group `i - floor(i / 10)`. -/
theorem getElem?_insertChecks_data (gs : List Group) {i : Nat} (hi : i % 10 ≠ 9) :
    (insertChecks 0 0 gs)[i]? = gs[i - i / 10]? := by
  calc (insertChecks 0 0 gs)[i]? = ((insertChecks 0 0 gs).drop (10 * (i / 10)))[i % 10]? := by
        rw [List.getElem?_drop, Nat.div_add_mod]
    _ = (gs.drop (9 * (i / 10)))[i % 10]? := by
        rw [drop_insertChecks, getElem?_insertChecks_of_lt _ (by omega)]
    _ = gs[i - i / 10]? := by
        rw [List.getElem?_drop, show 9 * (i / 10) + i % 10 = i - i / 10 by omega]

/-- At an index `i` with `i mod 10 = 9` stands the sum of the nine data groups of its line. -/
theorem getElem?_insertChecks_check {gs : List Group} {i : Nat} (hi : i % 10 = 9) (h : 9 * (i / 10) + 9 ≤ gs.length) :
    (insertChecks 0 0 gs)[i]? = some ((gs.drop (9 * (i / 10))).take 9).sum := by
  have hline : 9 ≤ (gs.drop (9 * (i / 10))).length := by rw [List.length_drop]; omega
  calc (insertChecks 0 0 gs)[i]? = ((insertChecks 0 0 gs).drop (10 * (i / 10)))[9]? := by
        rw [List.getElem?_drop, show 10 * (i / 10) + 9 = i by omega]
    _ = some ((gs.drop (9 * (i / 10))).take 9).sum := by
        rw [drop_insertChecks, insertChecks_eq_line hline,
          List.getElem?_append_right (List.length_take_of_le hline).le, List.length_take_of_le hline]
        rfl

/-! ### The groups `Ungroup` keeps (R173) -/

theorem getElem?_snoc {α : Type} (l : List α) (a : α) (i : Nat) :
    (l ++ [a])[i]? = if i = l.length then some a else l[i]? := by
  rcases Nat.lt_trichotomy i l.length with h | h | h
  · rw [List.getElem?_append_left h, if_neg h.ne]
  · rw [h, List.getElem?_concat_length, if_pos rfl]
  · rw [if_neg h.ne', List.getElem?_eq_none h.le, List.getElem?_eq_none (by rw [List.length_append]; exact h)]

/-- A last group is kept unless its index is 9 modulo 10. -/
theorem dropChecks_snoc (gs : List Group) (g : Group) :
    dropChecks (gs ++ [g]) = dropChecks gs ++ if gs.length % 10 = 9 then [] else [g] := by
  by_cases h : gs.length % 10 = 9 <;> simp [dropChecks, lineLength, List.zipIdx_append, h]

@[simp] theorem length_dropChecks (gs : List Group) : (dropChecks gs).length = gs.length - gs.length / 10 := by
  induction gs using List.reverseRecOn with
  | nil => rfl
  | append_singleton gs g ih =>
    rw [dropChecks_snoc, List.length_append, ih, List.length_append, List.length_singleton]
    split
    · rw [List.length_nil]; omega
    · rw [List.length_singleton]; omega

/-- Kept group `j` stood at index `j + floor(j / 9)`. -/
theorem getElem?_dropChecks (gs : List Group) (j : Nat) : (dropChecks gs)[j]? = gs[j + j / 9]? := by
  induction gs using List.reverseRecOn with
  | nil => rfl
  | append_singleton gs g ih =>
    rw [dropChecks_snoc, getElem?_snoc]
    split
    · rw [List.append_nil, ih, if_neg (by omega)]
    · rw [getElem?_snoc, ih, length_dropChecks]
      simp only [show j = gs.length - gs.length / 10 ↔ j + j / 9 = gs.length by omega]

/-- Removing the checksum groups undoes inserting them. -/
theorem dropChecks_insertChecks (gs : List Group) : dropChecks (insertChecks 0 0 gs) = gs := by
  refine List.ext_getElem? fun j => ?_
  rw [getElem?_dropChecks, getElem?_insertChecks_data gs (by omega), show j + j / 9 - (j + j / 9) / 10 = j by omega]

/-- The nine data groups before a checksum group, found among the kept ones. -/
theorem take_drop_dropChecks (gs : List Group) {i : Nat} (hi : i % 10 = 9) :
    ((dropChecks gs).drop (9 * (i / 10))).take 9 = (gs.drop (i - 9)).take 9 := by
  refine List.ext_getElem? fun k => ?_
  by_cases hk : k < 9
  · rw [List.getElem?_take_of_lt hk, List.getElem?_take_of_lt hk, List.getElem?_drop, List.getElem?_drop,
      getElem?_dropChecks, show 9 * (i / 10) + k + (9 * (i / 10) + k) / 9 = i - 9 + k by omega]
  · rw [List.getElem?_take_eq_none (by omega), List.getElem?_take_eq_none (by omega)]

/-! ### Groups and streams (R54) -/

theorem getElem?_groupsOf {ba : List Bool} {j : Nat} (h : j < groupCount ba) : (groupsOf ba)[j]? = some (groupAt ba j) := by
  simp [groupsOf, h]

/-- A run of groups of the stream. -/
theorem take_drop_groupsOf {ba : List Bool} {a n : Nat} (h : a + n ≤ groupCount ba) :
    ((groupsOf ba).drop a).take n = (List.range n).map fun k => groupAt ba (a + k) := by
  refine List.ext_getElem (by simp; omega) fun k h1 h2 => ?_
  simp [groupsOf]

/-- The stream of a group sequence has six bits a group. -/
theorem length_flatMap_bitsOfReg (gs : List Group) : (gs.flatMap bitsOfReg).length = 6 * gs.length :=
  length_flatMap_of_const fun g _ => length_bitsOfReg g

/-- Group `j` of the stream of a group sequence is its group `j`. -/
theorem groupAt_flatMap_bitsOfReg {gs : List Group} {j : Nat} (h : j < gs.length) :
    groupAt (gs.flatMap bitsOfReg) j = gs[j] :=
  BitVec.eq_of_toNat_eq ((toNat_memReadReg _ _ 6).trans
    (segmentAt_flatMap_of_const (fun g _ => length_bitsOfReg g) h).memRead_reg)

/-- The groups of the stream of a group sequence are that sequence. -/
theorem groupsOf_flatMap_bitsOfReg (gs : List Group) : groupsOf (gs.flatMap bitsOfReg) = gs := by
  have hcount : groupCount (gs.flatMap bitsOfReg) = gs.length := by
    rw [groupCount, length_flatMap_bitsOfReg]; omega
  refine List.ext_getElem (by simp [hcount]) fun j h1 h2 => ?_
  rw [← groupAt_flatMap_bitsOfReg h2]
  simp [groupsOf]

/-- Zero bits behind a stream read like the cells beyond its end (R101). -/
theorem bitAt_append_zeros (ba : List Bool) (n i : Nat) : bitAt (ba ++ List.replicate n false) i = bitAt ba i := by
  rw [bitAt_append]
  split
  · rfl
  · rw [bitAt_of_le (by omega : ba.length ≤ i), bitAt_eq]
    simp

/-- The groups of a stream, put behind each other, are the stream and the zero bits its last group reads beyond the end. -/
theorem flatMap_bitsOfReg_groupsOf (ba : List Bool) :
    (groupsOf ba).flatMap bitsOfReg = ba ++ List.replicate (6 * groupCount ba - ba.length) false := by
  have hcover : ba.length ≤ 6 * groupCount ba := by rw [groupCount]; omega
  refine stream_ext (by rw [length_flatMap_bitsOfReg, length_groupsOf, List.length_append, List.length_replicate]; omega)
    fun i hi => ?_
  rw [length_flatMap_bitsOfReg, length_groupsOf] at hi
  have hlt : i / 6 < (groupsOf ba).length := by rw [length_groupsOf]; omega
  have hsegment := segmentAt_flatMap_of_const (fun g _ => length_bitsOfReg g) hlt
  have hcell := hsegment.bitAt_reg (j := 5 - i % 6) (by omega)
  have hgroup : (groupsOf ba)[i / 6] = groupAt ba (i / 6) := by simp [groupsOf]
  rw [hgroup, groupAt, getLsbD_memReadReg, decide_eq_true (by omega), Bool.true_and,
    show 6 * (i / 6) + (6 - 1 - (5 - i % 6)) = i by omega] at hcell
  rw [hcell, bitAt_append_zeros]

/-! ### `Regroup` and `Ungroup` one after the other (R174) -/

@[simp] theorem length_ungroup (gs : List Group) : (ungroup gs).length = 6 * (gs.length - gs.length / 10) := by
  rw [ungroup, length_flatMap_bitsOfReg, length_dropChecks]

/-- The stream comes back, filled up with zero bits to whole groups. -/
theorem ungroup_regroup (ba : List Bool) :
    ungroup (regroup ba) = ba ++ List.replicate (6 * groupCount ba - ba.length) false := by
  rw [ungroup, regroup, dropChecks_insertChecks, flatMap_bitsOfReg_groupsOf]

/-- Every checksum group is computed anew from the data groups. -/
theorem regroup_ungroup (gs : List Group) : regroup (ungroup gs) = insertChecks 0 0 (dropChecks gs) := by
  rw [regroup, ungroup, groupsOf_flatMap_bitsOfReg]

/-- A sequence that does not end in front of a checksum group keeps its length. -/
theorem length_regroup_ungroup {gs : List Group} (h : gs.length % 10 ≠ 9) :
    (regroup (ungroup gs)).length = gs.length := by
  rw [regroup_ungroup, length_insertChecks 0 0 _ (by decide), length_dropChecks]
  simp only [lineLength]
  omega

theorem getElem?_regroup_ungroup_data (gs : List Group) {i : Nat} (hi : i % 10 ≠ 9) :
    (regroup (ungroup gs))[i]? = gs[i]? := by
  rw [regroup_ungroup, getElem?_insertChecks_data _ hi, getElem?_dropChecks,
    show i - i / 10 + (i - i / 10) / 9 = i by omega]

theorem getElem?_regroup_ungroup_check {gs : List Group} {i : Nat} (hi : i % 10 = 9) (hlt : i < gs.length) :
    (regroup (ungroup gs))[i]? = some ((gs.drop (i - 9)).take 9).sum := by
  rw [regroup_ungroup, getElem?_insertChecks_check hi (by rw [length_dropChecks]; omega), take_drop_dropChecks gs hi]

/-- The sequence comes back exactly when every checksum group was the sum of the nine groups before it. -/
theorem regroup_ungroup_eq_iff {gs : List Group} (h : gs.length % 10 ≠ 9) :
    regroup (ungroup gs) = gs ↔ ∀ i < gs.length, i % 10 = 9 → gs[i]? = some ((gs.drop (i - 9)).take 9).sum := by
  constructor
  · intro heq i hi hmod
    rw [← getElem?_regroup_ungroup_check hmod hi, heq]
  · intro hsums
    refine List.ext_getElem? fun i => ?_
    by_cases hmod : i % 10 = 9
    · by_cases hi : i < gs.length
      · rw [getElem?_regroup_ungroup_check hmod hi, hsums i hi hmod]
      · rw [List.getElem?_eq_none (by rw [length_regroup_ungroup h]; omega), List.getElem?_eq_none (by omega)]
    · exact getElem?_regroup_ungroup_data gs hmod

end Sys2Proof.Machine
end

section
/-! The commands of the regrouper and of the password buffer (43_regrouper.md, sections 2 and 3): one equation per case of
each command, and what the password buffer reads as afterwards. -/

set_option autoImplicit false

namespace Sys2Proof.Machine

/-! ### Groups and bytes (R177, R178) -/

@[simp] theorem toNat_byteOfGroup (g : Group) : (byteOfGroup g).toNat = g.toNat := by
  rw [byteOfGroup, BitVec.toNat_setWidth, Nat.mod_eq_of_lt (g.isLt.trans (by decide))]

/-- The group of a symbol in the domain is the symbol. -/
theorem toNat_groupOfByte {b : Byte} (h : b.toNat ≤ 0x3F) : (groupOfByte b).toNat = b.toNat := by
  rw [groupOfByte, BitVec.toNat_setWidth, Nat.mod_eq_of_lt (by omega)]

@[simp] theorem State.length_groups (s : State) : s.groups.length = s.pwlen.toNat := Memory.length_groups ..

theorem State.getElem_groups (s : State) {i : Nat} (h : i < s.groups.length) : s.groups[i] = groupOfByte (s.pw.read i) := by
  simp [State.groups, Memory.groups]

/-! ### `Scramble` and `Unscramble` by position (R175, R176) -/

theorem getElem_scramble {gs : List Group} {i : Nat} (h : i < (scramble gs).length) :
    (scramble gs)[i] = gs[i]'(length_scramble gs ▸ h) + BitVec.ofNat 6 i := by
  simp [scramble]

theorem getElem_unscramble {gs : List Group} {i : Nat} (h : i < (unscramble gs).length) :
    (unscramble gs)[i] = gs[i]'(length_unscramble gs ▸ h) - BitVec.ofNat 6 i := by
  simp [unscramble]

/-! ### The two checks of `UNGRP`, `SCRAM` and `UNSCR` (R178, D33) -/

section
variable {s : State} (effect : State → State) (v : State → Data)

/-- Symbols that pass both checks: the effect and its response. -/
theorem State.onSymbols_of_inDomain (hn : s.pwlen.toNat ≤ 260) (hdom : s.InDomain) :
    s.onSymbols effect v = .next ((effect s).ok (v (effect s))) := by
  rw [State.onSymbols, State.bufferError_eq_none.2 ⟨hn, hdom⟩]
  rfl

/-- A length beyond the buffer is refused before any symbol is looked at. -/
theorem State.onSymbols_of_too_long (hn : 260 < s.pwlen.toNat) : s.onSymbols effect v = .next (s.failed .range) := by
  have herr : s.bufferError = some .range := if_pos hn
  rw [State.onSymbols, herr]
  rfl

/-- A symbol outside the domain is refused. -/
theorem State.onSymbols_of_not_inDomain (hn : s.pwlen.toNat ≤ 260) (hdom : ¬ s.InDomain) :
    s.onSymbols effect v = .next (s.failed .symbol) := by
  have hbad : (!s.symbolsOk) = true := by rw [Bool.not_eq_true', Bool.eq_false_iff]; exact mt State.symbolsOk_iff.1 hdom
  have herr : s.bufferError = some .symbol := (if_neg (Nat.not_lt.2 hn)).trans (if_pos hbad)
  rw [State.onSymbols, herr]
  rfl

end

theorem exec_ungrp (s : State) : exec .ungrp s = s.onSymbols State.ungrouped fun t => dataOf t.balen := rfl

theorem exec_scram (s : State) : exec .scram s = s.onSymbols State.scrambled fun t => dataOf t.symbolCount := rfl

theorem exec_unscr (s : State) : exec .unscr s = s.onSymbols State.unscrambled fun t => dataOf t.symbolCount := rfl

/-! ### `REGRP` (R177) -/

theorem exec_regrp_of_fits {s : State} (h : (regroup s.ba).length ≤ 260) :
    exec .regrp s = .next (s.regrouped.ok (BitVec.ofNat 32 (regroup s.ba).length)) :=
  if_neg (Nat.not_lt.2 h)

theorem exec_regrp_of_overflow {s : State} (h : 260 < (regroup s.ba).length) : exec .regrp s = .next (s.failed .cap) :=
  if_pos h

/-- The buffer fits 1404 bits and no more. -/
theorem length_regroup_le_iff {ba : List Bool} : (regroup ba).length ≤ 260 ↔ ba.length ≤ 1404 := by
  rw [length_regroup, groupCount, lineLength]
  omega

/-- Where a group was written, it is read. -/
theorem read_writeGroups_of_getElem? {m : Memory} (hm : m.wf = true) {gs : List Group} (h : gs.length ≤ 260) {i : Nat}
    {g : Group} (hg : gs[i]? = some g) : (m.writeGroups gs).read i = byteOfGroup g := by
  obtain ⟨hi, rfl⟩ := List.getElem?_eq_some_iff.1 hg
  rw [Memory.read_writeGroups hm gs h, dif_pos hi]

/-- Behind the written groups nothing changes. -/
theorem read_writeGroups_of_le {m : Memory} (hm : m.wf = true) {gs : List Group} (h : gs.length ≤ 260) {i : Nat}
    (hi : gs.length ≤ i) : (m.writeGroups gs).read i = m.read i := by
  rw [Memory.read_writeGroups hm gs h, dif_neg (Nat.not_lt.2 hi)]

/-! ### `UNGRP` (R178) -/

theorem exec_ungrp_of_inDomain {s : State} (hn : s.pwlen.toNat ≤ 260) (hdom : s.InDomain) :
    exec .ungrp s = .next ((s.setBa (ungroup s.groups)).ok (BitVec.ofNat 32 (ungroup s.groups).length)) :=
  (exec_ungrp s).trans (State.onSymbols_of_inDomain _ _ hn hdom)

/-- Group `j` of the rebuilt stream is the symbol at `j + floor(j / 9)`. -/
theorem toNat_groupAt_ungroup {s : State} (hdom : s.InDomain) {j : Nat} (hj : j < s.pwlen.toNat - s.pwlen.toNat / 10) :
    (groupAt (ungroup s.groups) j).toNat = (s.pw.read (j + j / 9)).toNat := by
  have hpos : j + j / 9 < s.pwlen.toNat := by omega
  have hkept : j < (dropChecks s.groups).length := by rw [length_dropChecks, State.length_groups]; exact hj
  have hgroup : (dropChecks s.groups)[j] = groupOfByte (s.pw.read (j + j / 9)) := by
    rw [← Option.some_inj, ← List.getElem?_eq_getElem hkept, getElem?_dropChecks,
      List.getElem?_eq_getElem (by rwa [State.length_groups]), State.getElem_groups]
  rw [ungroup, groupAt_flatMap_bitsOfReg hkept, hgroup, toNat_groupOfByte (hdom _ hpos)]

/-! ### `SCRAM` and `UNSCR` (R179, R180) -/

theorem exec_scram_of_inDomain {s : State} (hn : s.pwlen.toNat ≤ 260) (hdom : s.InDomain) :
    exec .scram s = .next (s.scrambled.ok (BitVec.ofNat 32 s.pwlen.toNat)) :=
  (exec_scram s).trans (State.onSymbols_of_inDomain _ _ hn hdom)

theorem exec_unscr_of_inDomain {s : State} (hn : s.pwlen.toNat ≤ 260) (hdom : s.InDomain) :
    exec .unscr s = .next (s.unscrambled.ok (BitVec.ofNat 32 s.pwlen.toNat)) :=
  (exec_unscr s).trans (State.onSymbols_of_inDomain _ _ hn hdom)

section
variable {s : State} (hwf : s.pw.wf = true) (hn : s.pwlen.toNat ≤ 260) (hdom : s.InDomain)
include hwf hn hdom

/-- What each entry reads as after the scramble. -/
theorem toNat_read_scramble (i : Nat) : ((s.pw.writeGroups (scramble s.groups)).read i).toNat =
    if i < s.pwlen.toNat then ((s.pw.read i).toNat + i) % 64 else (s.pw.read i).toNat := by
  have hlen : (scramble s.groups).length = s.pwlen.toNat := by simp
  rw [Memory.read_writeGroups hwf _ (hlen ▸ hn)]
  by_cases hi : i < s.pwlen.toNat
  · rw [dif_pos (hlen ▸ hi), if_pos hi, toNat_byteOfGroup, getElem_scramble, State.getElem_groups, BitVec.toNat_add,
      BitVec.toNat_ofNat, toNat_groupOfByte (hdom i hi), Nat.add_mod_mod]
  · rw [dif_neg (hlen ▸ hi), if_neg hi]

/-- What each entry reads as after the scramble is undone. -/
theorem toNat_read_unscramble (i : Nat) : ((s.pw.writeGroups (unscramble s.groups)).read i).toNat =
    if i < s.pwlen.toNat then ((s.pw.read i).toNat + 64 - i % 64) % 64 else (s.pw.read i).toNat := by
  have hlen : (unscramble s.groups).length = s.pwlen.toNat := by simp
  rw [Memory.read_writeGroups hwf _ (hlen ▸ hn)]
  by_cases hi : i < s.pwlen.toNat
  · rw [dif_pos (hlen ▸ hi), if_pos hi, toNat_byteOfGroup, getElem_unscramble, State.getElem_groups, BitVec.toNat_sub,
      BitVec.toNat_ofNat, toNat_groupOfByte (hdom i hi)]
    omega
  · rw [dif_neg (hlen ▸ hi), if_neg hi]

end

/-! ### `PWWR`, `PWRD` and `PWLEN` (R181 to R183) -/

theorem exec_pwwr_of_lt {x : Pos} (h : x.toNat < 260) (b : Byte) (s : State) :
    exec (.pwwr x b) s = .next ((s.setPw (s.pw.write x.toNat b)).ok 0) :=
  if_neg (Nat.not_le.2 h)

theorem exec_pwwr_of_ge {x : Pos} (h : 260 ≤ x.toNat) (b : Byte) (s : State) :
    exec (.pwwr x b) s = .next (s.failed .range) :=
  if_pos h

theorem exec_pwrd_of_lt {x : Pos} (h : x.toNat < 260) (s : State) :
    exec (.pwrd x) s = .next (s.ok (BitVec.ofNat 32 (s.pw.read x.toNat).toNat)) := by
  rw [BitVec.ofNat_toNat]
  exact if_neg (Nat.not_le.2 h)

theorem exec_pwrd_of_ge {x : Pos} (h : 260 ≤ x.toNat) (s : State) : exec (.pwrd x) s = .next (s.failed .range) :=
  if_pos h

theorem exec_pwlen_of_le {n : Pos} (h : n.toNat ≤ 511) (s : State) :
    exec (.pwlen n) s = .next ((s.setPwlen (BitVec.ofNat 9 n.toNat)).ok 0) := by
  rw [BitVec.ofNat_toNat]
  exact if_neg (Nat.not_lt.2 h)

theorem exec_pwlen_of_gt {n : Pos} (h : 511 < n.toNat) (s : State) : exec (.pwlen n) s = .next (s.failed .range) :=
  if_pos h

/-! ### The input checks (R184, R195) -/

/-- The first check: the length. -/
theorem State.passwordGrade_of_bad_length {s : State} (h16 : s.pwlen.toNat ≠ 16) (h61 : s.pwlen.toNat ≠ 61)
    (h260 : s.pwlen.toNat ≠ 260) : s.passwordGrade = .error .length := by
  have hnone : gradeOfLength s.symbolCount = none := gradeOfLength_eq_none.2 ⟨h16, h61, h260⟩
  rw [State.passwordGrade, hnone]

/-- The second check: the symbols. -/
theorem State.passwordGrade_of_not_inDomain {s : State}
    (hlen : s.pwlen.toNat = 16 ∨ s.pwlen.toNat = 61 ∨ s.pwlen.toNat = 260) (hdom : ¬ s.InDomain) :
    s.passwordGrade = .error .symbol := by
  cases hgrade : s.passwordGrade with
  | ok g => exact absurd (State.passwordGrade_eq_ok.1 hgrade).2 hdom
  | error e =>
    rcases State.passwordGrade_eq_error hgrade with ⟨-, hnone⟩ | ⟨rfl, -⟩
    · have hother : s.pwlen.toNat ≠ 16 ∧ s.pwlen.toNat ≠ 61 ∧ s.pwlen.toNat ≠ 260 := gradeOfLength_eq_none.1 hnone
      omega
    · rfl

theorem exec_pwchk_of_holdsPassword {s : State} {g : Grade} (h : s.HoldsPassword g) :
    exec .pwchk s = .next (s.ok (g.code.setWidth 32)) := by
  show execPwchk s = _
  rw [execPwchk, State.passwordGrade_eq_ok.2 h]
  rfl

/-- A failed input check is the answer of each command that makes the checks, and nothing else changes. -/
theorem exec_of_passwordGrade_error {s : State} {e : Status} (h : s.passwordGrade = .error e) {i : Instr}
    (hi : i = .pwchk ∨ i = .decode ∨ ∃ t : GradeCode, t ≠ 0 ∧ i = .convert t) : exec i s = .next (s.failed e) := by
  rcases hi with rfl | rfl | ⟨t, ht, rfl⟩
  · show execPwchk s = _
    rw [execPwchk, h]
    rfl
  · show execDecode s = _
    rw [execDecode, h]
    rfl
  · obtain ⟨g, hg⟩ := Option.ne_none_iff_exists'.1 fun hnone => ht (gradeOfCode_eq_none.1 hnone)
    show execConvert t s = _
    rw [execConvert, hg, h]
    rfl

end Sys2Proof.Machine
end

section
/-! The statements about the regrouper and the password buffer. -/

set_option autoImplicit false

namespace Sys2Proof.Machine

/-- Settles O42: the output by position, with the nine data groups of a line read from the stream. -/
theorem regroupInterleavesLineSums : Obligations.RegroupInterleavesLineSums := by
  intro ba nd
  refine ⟨length_regroup ba, fun i hi => ⟨fun hcheck => ?_, fun hdata => ?_⟩⟩
  · have hline : 9 * (i / 10) + 9 ≤ groupCount ba := by simp only [groupCount]; omega
    rw [regroup, getElem?_insertChecks_check hcheck (by rwa [length_groupsOf]), take_drop_groupsOf hline]
  · rw [regroup, getElem?_insertChecks_data _ hdata, getElem?_groupsOf (by simp only [groupCount]; omega)]

/-- Settles O43: the buffer after `REGRP` by position; 1404 bits are the most that fit. -/
theorem regrpWritesTheGroups : Obligations.RegrpWritesTheGroups := by
  intro s hwf nd
  have hlen : (regroup s.ba).length = nd + nd / 9 := length_regroup s.ba
  refine ⟨fun hfit => ?_, fun hfull => exec_regrp_of_overflow (Nat.lt_of_not_le fun h => ?_)⟩
  · have hcap := length_regroup_le_iff.2 hfit
    refine ⟨s.pw.writeGroups (regroup s.ba), ?_, fun i g hg => read_writeGroups_of_getElem? hwf hcap hg,
      fun i hi => read_writeGroups_of_le hwf hcap (hlen ▸ hi)⟩
    rw [exec_regrp_of_fits hcap, ← hlen]
    rfl
  · exact absurd (length_regroup_le_iff.1 h) (by omega)

/-- Settles O44: the rebuilt stream by its groups, and the two refusals in their order. -/
theorem ungrpRebuildsTheStream : Obligations.UngrpRebuildsTheStream := by
  intro s n
  refine ⟨fun hn hdom => ⟨ungroup s.groups, ?_, ?_, fun j hj => toNat_groupAt_ungroup hdom hj⟩,
    fun hn => (exec_ungrp s).trans (State.onSymbols_of_too_long _ _ hn),
    fun hn hdom => (exec_ungrp s).trans (State.onSymbols_of_not_inDomain _ _ hn hdom)⟩
  · rw [exec_ungrp_of_inDomain hn hdom, length_ungroup, State.length_groups]
    rfl
  · rw [length_ungroup, State.length_groups]

/-- Settles O45: each way by position; none of the three lengths is 9 modulo 10. -/
theorem ungroupUndoesRegroup : Obligations.UngroupUndoesRegroup := by
  refine ⟨ungroup_regroup, fun gs hlengths => ?_⟩
  have hmod : gs.length % 10 ≠ 9 := by omega
  exact ⟨length_regroup_ungroup hmod, fun i hi => getElem?_regroup_ungroup_data gs hi, regroup_ungroup_eq_iff hmod⟩

/-- Settles O46: both commands answer the same way, and their buffers by position. -/
theorem scramAndUnscrShiftByTheIndex : Obligations.ScramAndUnscrShiftByTheIndex := by
  intro s hwf n
  exact ⟨fun hn hdom => ⟨_, _, exec_scram_of_inDomain hn hdom, exec_unscr_of_inDomain hn hdom,
      fun i => ⟨toNat_read_scramble hwf hn hdom i, toNat_read_unscramble hwf hn hdom i⟩⟩,
    fun hn => ⟨(exec_scram s).trans (State.onSymbols_of_too_long _ _ hn),
      (exec_unscr s).trans (State.onSymbols_of_too_long _ _ hn)⟩,
    fun hn hdom => ⟨(exec_scram s).trans (State.onSymbols_of_not_inDomain _ _ hn hdom),
      (exec_unscr s).trans (State.onSymbols_of_not_inDomain _ _ hn hdom)⟩⟩

/-- Settles O48: the equations of the three commands, and the read of a written buffer. -/
theorem passwordBufferCommands : Obligations.PasswordBufferCommands := by
  intro s hwf
  refine ⟨fun x b hx => ⟨s.pw.write x.toNat b, exec_pwwr_of_lt hx b s, fun i => ?_⟩,
    fun x b hx => exec_pwwr_of_ge hx b s,
    fun x hx => exec_pwrd_of_lt hx s, fun x hx => exec_pwrd_of_ge hx s, fun n hn => exec_pwlen_of_le hn s,
    fun n hn => exec_pwlen_of_gt hn s⟩
  rw [Memory.read_write hwf]
  exact if_congr eq_comm rfl rfl

/-- Settles O49: the length is checked first, then the symbols, whichever command makes the checks. -/
theorem inputChecksLengthThenSymbols : Obligations.InputChecksLengthThenSymbols := by
  intro s
  exact ⟨fun g hholds => exec_pwchk_of_holdsPassword hholds, fun i hi =>
    ⟨fun h16 h61 h260 => exec_of_passwordGrade_error (State.passwordGrade_of_bad_length h16 h61 h260) hi,
      fun hlen hdom => exec_of_passwordGrade_error (State.passwordGrade_of_not_inDomain hlen hdom) hi⟩⟩

end Sys2Proof.Machine
end

section
/-! The framed payload there and back (R191, R193): the length of each step's output, and the payload at the start of the
stream that the inverse steps rebuild from a password. -/

set_option autoImplicit false

namespace Sys2Proof.Machine

/-- A list that has the cells of a part from position 0 on begins with it. -/
theorem segmentAt_zero_of_bitAt {ba part : List Bool} (hlen : part.length ≤ ba.length)
    (h : ∀ p < part.length, bitAt ba p = bitAt part p) : SegmentAt ba 0 part := by
  refine List.prefix_iff_eq_take.2 (stream_ext (by simp [hlen]) fun p hp => ?_)
  rw [List.drop_zero, bitAt_take _ hp, h p hp]

/-! ### `Encrypt` and `Decrypt` one after the other (R154) -/

/-- R154: a framed stream decrypts to its content, whatever trailing bits (R193) follow the last whole byte. -/
theorem bitAt_decrypt_encrypt {ba : List Bool} (k : BitVec 16) (halign : ba.length % 8 = 0) {n : Nat} (hn : n < 8) {p : Nat}
    (hp : p < ba.length) : bitAt (decrypt (encrypt ba k ++ List.replicate n false)) p = bitAt ba p := by
  have hbytes := length_of_aligned halign
  have hwhole : wholeBytes (encrypt ba k ++ List.replicate n false) - 1 = wholeBytes ba + 1 := by
    simp only [wholeBytes, List.length_append, length_encrypt, List.length_replicate]
    omega
  have hlast : lastByte (encrypt ba k ++ List.replicate n false) = keyLo k := by
    rw [lastByte, hwhole, byteAt_append_left _ (by rw [length_encrypt]; omega), byteAt_encrypt_keyLo k halign]
  have hcell : bitAt (encrypt ba k ++ List.replicate n false) p = (bitAt ba p != (keyLo k).getLsbD (7 - p % 8)) := by
    rw [bitAt_append_zeros, encrypt, List.append_assoc, bitAt_append, if_pos (by rwa [length_xorBytes]), bitAt_xorBytes,
      if_pos (by omega)]
  rw [decrypt, hwhole, hlast, bitAt_xorBytes, if_pos ⟨by omega, by simp; omega⟩, hcell]
  simp

/-! ### `Scramble` and `Unscramble` one after the other (R176) -/

theorem unscramble_scramble (gs : List Group) : unscramble (scramble gs) = gs := by
  refine List.ext_getElem (by simp) fun i _ _ => ?_
  rw [getElem_unscramble, getElem_scramble, add_sub_cancel_right]

/-! ### The password of a payload (R191) -/

@[simp] theorem length_frame (payload : List Bool) (g : Grade) : (frame payload g).length = payload.length + 16 :=
  length_encrypt ..

/-- R199: the payload's declared size gives the declared length. -/
@[simp] theorem length_encodePassword (cfg : Params) (ss : SaveState) (g : Grade) :
    (encodePassword cfg ss g).length = g.passwordLength := by
  rw [encodePassword, length_scramble, length_regroup, groupCount, length_frame, length_pack]
  cases g <;> rfl

/-- R193: the steps undone in reverse order give back the payload, and behind it the key and the bits that filled the last
group. -/
theorem segmentAt_decrypt_encodePassword (cfg : Params) (ss : SaveState) (g : Grade) :
    SegmentAt (decrypt (ungroup (unscramble (encodePassword cfg ss g)))) 0 (pack cfg ss g) := by
  have halign : (pack cfg ss g).length % 8 = 0 := by rw [length_pack, Nat.mul_mod_right]
  rw [encodePassword, unscramble_scramble, ungroup_regroup]
  refine segmentAt_zero_of_bitAt (by simp; omega) fun p hp => bitAt_decrypt_encrypt _ halign ?_ hp
  simp only [groupCount]
  omega

end Sys2Proof.Machine
end

section
/-! `Unpack` of a packed payload (R134, R136, R139): the registers that every grade carries, and the watched ids of the
bitmap. -/

set_option autoImplicit false

namespace Sys2Proof.Machine

/-! ### The registers of the head and the events (R136) -/

/-- The bits of a register stand for its value (R51). -/
theorem valueOf_bitsOfReg {w : Nat} (v : BitVec w) : valueOf (bitsOfReg v) = v.toNat := by
  rw [bitsOfReg, valueOf_bitsOf, Nat.mod_eq_of_lt v.isLt]

/-- R123: a block of four registers gives them back. -/
theorem registersOfBlock_headBlock (v : Vector (BitVec 7) 4) : registersOfBlock (headBlock v) = v := by
  have hvalue : valueOf (headBlock v) = ((v[3].toNat * 128 + v[2].toNat) * 128 + v[1].toNat) * 128 + v[0].toNat := by
    simp only [headBlock, valueOf_append, valueOf_bitsOfReg, length_bitsOfReg]
    rfl
  refine Vector.ext fun i hi => BitVec.eq_of_toNat_eq ?_
  refine (toNat_registersOfBlock _ ⟨i, hi⟩).trans ?_
  rw [hvalue, Nat.shiftRight_eq_div_pow]
  match i with
  | 0 => simp; omega
  | 1 => simp; omega
  | 2 => simp; omega
  | 3 => simp; omega

section
variable {cfg : Params} {ss : SaveState} {g : Grade} {ba : List Bool} (h : SegmentAt ba 0 (pack cfg ss g))
include h

/-- A part of the payload stands in the stream where it stands in the payload. -/
theorem SegmentAt.of_pack {a : Nat} {part : List Bool} (hpart : SegmentAt (pack cfg ss g) a part) : SegmentAt ba a part := by
  simpa using h.trans hpart

theorem unpack_level_of_pack : (unpack cfg g ba).level = ss.level := by
  have hblock := h.of_pack ((segmentAt_pack_head cfg ss g).trans (segmentAt_packHead_level ss))
  show registersOfBlock ((unpackHead ba).take 28) = ss.level
  rw [take_unpackHead, hblock.readBits_eq (length_headBlock _), registersOfBlock_headBlock]

theorem unpack_comp_of_pack : (unpack cfg g ba).comp = ss.comp := by
  have hlow := h.of_pack ((segmentAt_pack_head cfg ss g).trans (segmentAt_packHead_comp_low ss))
  have hhigh := h.of_pack ((segmentAt_pack_head cfg ss g).trans (segmentAt_packHead_comp_high ss))
  show registersOfBlock ((unpackHead ba).drop 28) = ss.comp
  rw [drop_unpackHead, hhigh.readBits_eq (by simp), hlow.readBits_eq (by simp), List.take_append_drop,
    registersOfBlock_headBlock]

theorem unpack_event_of_pack : (unpack cfg g ba).event = ss.event := by
  refine Vector.ext fun k hk => ?_
  have hbit := (h.of_pack (segmentAt_pack_events cfg ss g)).bitAt_eq (k := k) (by simp; omega)
  rw [bitAt_packEvents ss ⟨k, hk⟩] at hbit
  simpa [unpack, eventBase] using hbit

/-- R126, R139: the watched ids whose bit is 1 are those that some slot held. -/
theorem bitmapIds_of_pack (hg : g ≠ .gold) : bitmapIds cfg ba = heldWatchIds cfg ss := by
  have hbit : ∀ wk ∈ cfg.watch.toList.zipIdx, bitAt ba (bitmapBase + wk.2) = holdsId ss.item wk.1 := by
    rintro ⟨w, k⟩ hmem
    obtain ⟨hk, rfl⟩ := List.getElem?_eq_some_iff.1 (List.mk_mem_zipIdx_iff_getElem?.1 hmem)
    rw [Vector.length_toList] at hk
    rw [bitmapBase, (h.of_pack (segmentAt_pack_bitmap cfg ss hg)).bitAt_eq (by simpa using hk)]
    exact bitAt_packBitmap cfg ss ⟨k, hk⟩
  calc bitmapIds cfg ba = (cfg.watch.toList.zipIdx.filter (holdsId ss.item ∘ Prod.fst)).map Prod.fst := by
        rw [bitmapIds, List.filter_congr hbit]; rfl
    _ = cfg.watch.toList.filter (holdsId ss.item) := by rw [← List.filter_map, List.zipIdx_map_fst]
    _ = heldWatchIds cfg ss := List.filter_congr fun w _ => by
        rw [Bool.eq_iff_iff, decide_eq_true_iff, holdsId_iff]

end

theorem mem_heldWatchIds {cfg : Params} {ss : SaveState} {w : ItemId} :
    w ∈ heldWatchIds cfg ss ↔ w ∈ cfg.watch.toList ∧ holdsId ss.item w = true := by
  rw [heldWatchIds, List.mem_filter, decide_eq_true_iff, holdsId_iff]

theorem length_heldWatchIds_le (cfg : Params) (ss : SaveState) : (heldWatchIds cfg ss).length ≤ 8 :=
  (List.length_filter_le _ _).trans_eq cfg.watch.length_toList

end Sys2Proof.Machine
end

section
/-! The items that the bitmap adds to a placeholder table (R139, D26): as long as the character has an empty slot for each,
every one of them finds a place. -/

set_option autoImplicit false

namespace Sys2Proof.Machine

/-- How many slots of one character have id 0, the count of `Params.RoomFor`. -/
def emptySlots (slots : Vector Item 15) : Nat := slots.toList.countP fun item => item.id == 0

theorem firstSlot_eq_some {slots : Vector Item 15} {id : ItemId} {s : Fin 15} (h : firstSlot slots id = some s) :
    slots[s].id = id := by
  simpa using List.find?_some h

/-- A character with an empty slot has a lowest one. -/
theorem exists_firstSlot_of_emptySlots_pos {slots : Vector Item 15} (h : 0 < emptySlots slots) :
    ∃ s, firstSlot slots 0 = some s := by
  obtain ⟨item, hmem, hid⟩ := List.countP_pos_iff.1 h
  obtain ⟨i, hi, rfl⟩ := Vector.mem_iff_getElem.1 (Vector.mem_toList_iff.1 hmem)
  refine Option.ne_none_iff_exists'.1 fun hnone => ?_
  exact List.find?_eq_none.1 hnone ⟨i, hi⟩ (List.mem_finRange _) hid

/-- Filling an empty slot takes one empty slot at most. -/
theorem emptySlots_set {slots : Vector Item 15} {s : Fin 15} (hempty : slots[s].id = 0) (item : Item) :
    emptySlots slots ≤ emptySlots (slots.set s item) + 1 := by
  have hslot : slots[s.val].id = 0 := hempty
  simp only [emptySlots, Vector.countP_toList, Vector.countP_set s.isLt, hslot, beq_self_eq_true, if_true]
  omega

/-- One slot of the table is written, and no other. -/
theorem getElem_set_slot (table : ItemTable) (c : Fin 4) (s : Fin 15) (item : Item) (d : Fin 4) (t : Fin 15) :
    (table.set c (table[c].set s item))[d][t] = if d = c ∧ t = s then item else table[d][t] := by
  by_cases hc : d = c
  · subst hc
    simp [Vector.getElem_set, Fin.ext_iff, eq_comm]
  · have hne : c.val ≠ d.val := fun e => hc (Fin.ext e.symm)
    simp [hc, hne]

/-- An item put into an empty slot is held, and every other id is held as before. -/
theorem holdsId_set {table : ItemTable} {c : Fin 4} {s : Fin 15} (hempty : table[c][s].id = 0) (item : Item) {id : ItemId}
    (hid : id ≠ 0) :
    holdsId (table.set c (table[c].set s item)) id = true ↔ holdsId table id = true ∨ id = item.id := by
  simp only [holdsId_iff, getElem_set_slot]
  constructor
  · rintro ⟨d, t, hslot⟩
    split at hslot
    · exact .inr hslot.symm
    · exact .inl ⟨d, t, hslot⟩
  · rintro (⟨d, t, hslot⟩ | hitem)
    · have hother : ¬ (d = c ∧ t = s) := by
        rintro ⟨rfl, rfl⟩
        exact hid (hslot.symm.trans hempty)
      exact ⟨d, t, by rw [if_neg hother, hslot]⟩
    · exact ⟨c, s, by rw [if_pos ⟨rfl, rfl⟩, hitem]⟩

/-- With an empty slot the item finds a place, and takes one empty slot at most. -/
theorem placeItem_of_emptySlots_pos {c : Fin 4} {table : ItemTable} (h : 0 < emptySlots table[c]) (w : ItemId) :
    emptySlots table[c] ≤ emptySlots (placeItem c table w)[c] + 1 ∧
      ∀ id, id ≠ 0 → (holdsId (placeItem c table w) id = true ↔ holdsId table id = true ∨ id = w) := by
  by_cases hheld : holdsId table w = true
  · rw [placeItem_of_held c table w hheld]
    refine ⟨by omega, fun id _ => ⟨.inl, ?_⟩⟩
    rintro (hid | rfl)
    · exact hid
    · exact hheld
  · obtain ⟨s, hs⟩ := exists_firstSlot_of_emptySlots_pos h
    have hempty := firstSlot_eq_some hs
    have hplace : placeItem c table w = table.set c (table[c].set s ⟨w, 0⟩) := by
      rw [placeItem, if_neg hheld, hs]
    rw [hplace]
    refine ⟨?_, fun id hid => holdsId_set hempty ⟨w, 0⟩ hid⟩
    simpa using emptySlots_set hempty ⟨w, 0⟩

/-- R139: with an empty slot for each, the table afterwards holds the ids it held before and the ids of the bitmap. -/
theorem holdsId_applyBitmap (cfg : Params) {table : ItemTable} {ids : List ItemId}
    (hroom : ids.length ≤ emptySlots table[cfg.watchChar]) {id : ItemId} (hid : id ≠ 0) :
    holdsId (applyBitmap cfg table ids) id = true ↔ holdsId table id = true ∨ id ∈ ids := by
  induction ids generalizing table with
  | nil => simp [applyBitmap]
  | cons w ids ih =>
    rw [List.length_cons] at hroom
    obtain ⟨hslots, hholds⟩ := placeItem_of_emptySlots_pos (by omega : 0 < emptySlots table[cfg.watchChar]) w
    rw [applyBitmap, List.foldl_cons, ← applyBitmap, ih (by omega), hholds id hid, List.mem_cons, or_assoc]

/-- R9: a placeholder table with room for the watched ids, and with none of them in it, holds after the bitmap exactly the
watched ids that the packed SaveState held. -/
theorem packBitmap_of_applyBitmap {cfg : Params} {table : ItemTable} (hzero : (0 : ItemId) ∉ cfg.watch.toList)
    (hroom : cfg.RoomFor table) {ss ss' : SaveState} (hitem : ss'.item = applyBitmap cfg table (heldWatchIds cfg ss)) :
    packBitmap cfg ss' = packBitmap cfg ss := by
  obtain ⟨habsent, hempty⟩ := hroom
  refine List.map_congr_left fun w hw => ?_
  have hnot : ¬ holdsId table w = true := by
    rw [holdsId_iff]
    rintro ⟨c, s, hslot⟩
    exact habsent w hw table[c] (by simp) table[c][s] (by simp) hslot
  have hfit : (heldWatchIds cfg ss).length ≤ emptySlots table[cfg.watchChar] := (length_heldWatchIds_le cfg ss).trans hempty
  rw [Bool.eq_iff_iff, hitem, holdsId_applyBitmap cfg hfit fun hw0 => hzero (hw0 ▸ hw), mem_heldWatchIds]
  simp [hnot, hw]

end Sys2Proof.Machine
end

section
/-! The commands of the pipelines (44_pipeline.md): one equation per case of `ENCODE` and of `CONVERT`, the password that
`ENCODE` leaves in the buffer, and the SaveState that is read back from it. -/

set_option autoImplicit false

namespace Sys2Proof.Machine

theorem code_ne_zero (g : Grade) : g.code ≠ 0 := by cases g <;> decide

/-- A length of some grade is one of the three of R7. -/
theorem passwordLength_cases (g : Grade) : g.passwordLength = 16 ∨ g.passwordLength = 61 ∨ g.passwordLength = 260 := by
  cases g <;> decide

/-- Every password length fits `CR.PWLEN`. -/
theorem toNat_passwordLength (g : Grade) : (BitVec.ofNat 9 g.passwordLength).toNat = g.passwordLength := by
  cases g <;> rfl

/-! ### `ENCODE` (R192) -/

theorem exec_encode_code (s : State) (g : Grade) :
    exec (.encode g.code) s = .next ((s.encoded g).ok (BitVec.ofNat 32 g.passwordLength)) := by
  show execEncode g.code s = _
  rw [execEncode, gradeOfCode_code]
  rfl

section
variable {s : State} (hwf : s.pw.wf = true) (g : Grade)
include hwf

/-- The entries below the length are the password. -/
theorem read_encoded_of_lt {i : Nat} (hi : i < g.passwordLength) :
    (s.encoded g).pw.read i = byteOfGroup ((encodePassword s.cfg s.ss g)[i]'(by rwa [length_encodePassword])) := by
  have hcap := passwordLength_le g
  rw [State.encoded_pw, Memory.read_writeGroups hwf _ (by rwa [length_encodePassword]), dif_pos]

/-- The entries from the length on stay. -/
theorem read_encoded_of_ge {i : Nat} (hi : g.passwordLength ≤ i) : (s.encoded g).pw.read i = s.pw.read i := by
  have hcap : g.passwordLength ≤ 260 := passwordLength_le g
  rw [State.encoded_pw, read_writeGroups_of_le hwf (by rwa [length_encodePassword]) (by rwa [length_encodePassword])]

/-- R200: a group is at most 63. -/
theorem toNat_read_encoded_le {i : Nat} (hi : i < g.passwordLength) : ((s.encoded g).pw.read i).toNat ≤ 0x3F := by
  rw [read_encoded_of_lt hwf g hi, toNat_byteOfGroup]
  exact Nat.le_of_lt_succ (BitVec.isLt _)

/-- R204: the entries below the length depend on the password alone. -/
theorem read_encoded_congr {s' : State} (hwf' : s'.pw.wf = true) {g : Grade}
    (hpassword : encodePassword s.cfg s.ss g = encodePassword s'.cfg s'.ss g) {i : Nat} (hi : i < g.passwordLength) :
    (s.encoded g).pw.read i = (s'.encoded g).pw.read i := by
  simp only [read_encoded_of_lt hwf g hi, read_encoded_of_lt hwf' g hi, hpassword]

theorem wf_encoded : (s.encoded g).pw.wf = true :=
  Memory.wf_writeGroups hwf _ (by rw [length_encodePassword]; exact passwordLength_le g)

/-- R199, R200: what `ENCODE` leaves in the buffer passes the checks of R195. -/
theorem holdsPassword_encoded : (s.encoded g).HoldsPassword g := by
  have hlen : (s.encoded g).pwlen.toNat = g.passwordLength := toNat_passwordLength g
  exact ⟨hlen, fun i hi => toNat_read_encoded_le hwf g (hlen ▸ hi)⟩

theorem groups_encoded : (s.encoded g).groups = encodePassword s.cfg s.ss g := by
  have hlen : (s.encoded g).groups.length = g.passwordLength := (State.length_groups _).trans (toNat_passwordLength g)
  refine List.ext_getElem (by rw [hlen, length_encodePassword]) fun i hi _ => ?_
  rw [State.getElem_groups, read_encoded_of_lt hwf g (hlen ▸ hi), groupOfByte_byteOfGroup]

/-- R193, R201: the Decoder rebuilds a stream that begins with the payload that was encoded. -/
theorem segmentAt_decoded_encoded : SegmentAt ((s.encoded g).decoded g).ba 0 (pack s.cfg s.ss g) := by
  rw [State.decoded_ba, groups_encoded hwf]
  exact segmentAt_decrypt_encodePassword s.cfg s.ss g

end

/-! ### `CONVERT` (R198) -/

section
variable {s : State} {source : Grade} (h : s.HoldsPassword source)
include h

/-- The three-way choice of R197, once the checks have passed. -/
theorem exec_convert_of_holdsPassword (target : Grade) : exec (.convert target.code) s =
    if target.code.toNat > source.code.toNat then .next (s.failed .grade)
    else if target.code = source.code then
      .next ((s.setGrade source.code).ok (BitVec.ofNat 32 source.passwordLength))
    else .next (((s.decoded source).encoded target).ok (BitVec.ofNat 32 target.passwordLength)) := by
  show execConvert target.code s = _
  rw [execConvert, gradeOfCode_code, State.passwordGrade_eq_ok.2 h]
  rfl

theorem exec_convert_same :
    exec (.convert source.code) s = .next ((s.setGrade source.code).ok (BitVec.ofNat 32 source.passwordLength)) := by
  rw [exec_convert_of_holdsPassword h, if_neg (Nat.lt_irrefl _), if_pos rfl]

theorem exec_convert_upwards {target : Grade} (hup : source.code.toNat < target.code.toNat) :
    exec (.convert target.code) s = .next (s.failed .grade) := by
  rw [exec_convert_of_holdsPassword h, if_pos hup]

theorem exec_convert_downwards {target : Grade} (hdown : target.code.toNat < source.code.toNat) :
    exec (.convert target.code) s =
      .next (((s.decoded source).encoded target).ok (BitVec.ofNat 32 target.passwordLength)) := by
  have hne : target.code ≠ source.code := fun heq => hdown.ne (congrArg BitVec.toNat heq)
  rw [exec_convert_of_holdsPassword h, if_neg (Nat.not_lt.2 hdown.le), if_neg hne]

end

/-! ### Downgrading in two steps (R203) -/

/-- Two commands, the first of which completes. -/
theorem runCommands_pair {i j : Instr} {s t : State} (h : exec i s = .next t) : runCommands [i, j] s = exec j t := by
  simp only [runCommands, h]
  cases exec j t <;> rfl

/-- The response of an earlier command is not read (R23), so the second step starts from what the first one encoded. -/
theorem runCommands_convert_silver_bronze {s : State} (hwf : s.pw.wf = true) (h : s.HoldsPassword .gold) :
    runCommands [.convert Grade.silver.code, .convert Grade.bronze.code] s =
      .next (((((s.decoded .gold).encoded .silver).decoded .silver).encoded .bronze).ok
        (BitVec.ofNat 32 Grade.bronze.passwordLength)) := by
  have hsilver : ((s.decoded .gold).encoded .silver).HoldsPassword .silver :=
    holdsPassword_encoded (s := s.decoded .gold) hwf .silver
  rw [runCommands_pair (exec_convert_downwards h (target := .silver) (by decide))]
  exact exec_convert_downwards (s := ((s.decoded .gold).encoded .silver).ok _) hsilver (target := .bronze) (by decide)

/-- A Bronze payload is the head, the events and the bitmap (R122). -/
theorem pack_bronze_congr {cfg : Params} {ss ss' : SaveState} (hlevel : ss'.level = ss.level) (hcomp : ss'.comp = ss.comp)
    (hevent : ss'.event = ss.event) (hbitmap : packBitmap cfg ss' = packBitmap cfg ss) :
    pack cfg ss' .bronze = pack cfg ss .bronze := by
  simp only [pack, packFields_bronze, packHead, packEvents, hlevel, hcomp, hevent, hbitmap]

/-- R203: what a Silver payload carries is enough for the Bronze payload, when its placeholder table has room for the
watched items. -/
theorem pack_bronze_unpack_silver {cfg : Params} {ss : SaveState} {ba : List Bool}
    (hzero : (0 : ItemId) ∉ cfg.watch.toList) (hroom : cfg.RoomFor cfg.defItemsSilver)
    (h : SegmentAt ba 0 (pack cfg ss .silver)) : pack cfg (unpack cfg .silver ba) .bronze = pack cfg ss .bronze := by
  have hitem : (unpack cfg .silver ba).item = applyBitmap cfg cfg.defItemsSilver (heldWatchIds cfg ss) := by
    rw [← bitmapIds_of_pack h (by decide)]
    rfl
  exact pack_bronze_congr (unpack_level_of_pack h) (unpack_comp_of_pack h) (unpack_event_of_pack h)
    (packBitmap_of_applyBitmap hzero hroom hitem)

/-- R203: encoding at Silver, decoding and encoding at Bronze gives the Bronze password. -/
theorem encodePassword_bronze_decoded_silver {s : State} (hwf : s.pw.wf = true) (hzero : (0 : ItemId) ∉ s.cfg.watch.toList)
    (hroom : s.cfg.RoomFor s.cfg.defItemsSilver) :
    encodePassword s.cfg ((s.encoded .silver).decoded .silver).ss .bronze = encodePassword s.cfg s.ss .bronze := by
  have hpack := pack_bronze_unpack_silver hzero hroom (segmentAt_decoded_encoded hwf .silver)
  rw [encodePassword, encodePassword, ← hpack]
  rfl

end Sys2Proof.Machine
end

section
/-! The statements about the pipelines. -/

set_option autoImplicit false

namespace Sys2Proof.Machine

/-- Settles O51: the password that `ENCODE` writes, entry by entry. -/
theorem encodedPasswordLengthAndDomain : Obligations.EncodedPasswordLengthAndDomain := by
  intro s g hwf
  exact ⟨_, exec_encode_code s g, toNat_passwordLength g, fun _ hi => toNat_read_encoded_le hwf g hi,
    fun _ hi => read_encoded_of_ge hwf g hi, rfl, rfl, rfl⟩

/-- Settles O55: the middle case of the choice of R197. -/
theorem convertToSameGradeIsNoOp : Obligations.ConvertToSameGradeIsNoOp := fun _ _ hholds => exec_convert_same hholds

/-- Settles O56: the symbols are checked before the grades are compared. -/
theorem convertUpwardsFails : Obligations.ConvertUpwardsFails := by
  intro s source target hlen hup
  refine ⟨fun hdom => exec_convert_upwards ⟨hlen, hdom⟩ hup, fun hdom => ?_⟩
  have hsymbol := State.passwordGrade_of_not_inDomain (hlen ▸ passwordLength_cases source) hdom
  exact exec_of_passwordGrade_error hsymbol (.inr (.inr ⟨target.code, code_ne_zero target, rfl⟩))

/-- Settles O58: both routes end in an `ENCODE Bronze`, and the two SaveStates it runs on have the same Bronze password. -/
theorem downgradeInTwoStepsIsDowngradeInOne : Obligations.DowngradeInTwoStepsIsDowngradeInOne := by
  intro s hwf hvalid hroom hholds
  obtain ⟨-, hzero, -, -⟩ := hvalid
  have hdecoded : (s.decoded .gold).pw.wf = true := hwf
  have hmiddle : (((s.decoded .gold).encoded .silver).decoded .silver).pw.wf = true := wf_encoded hdecoded .silver
  have hpassword := encodePassword_bronze_decoded_silver hdecoded hzero hroom
  exact ⟨_, _, runCommands_convert_silver_bronze hwf hholds, exec_convert_downwards hholds (by decide), rfl, rfl, rfl,
    fun _ hi => read_encoded_congr hmiddle hdecoded hpassword hi⟩

end Sys2Proof.Machine
end

section
/-! The system commands and reset (45_system.md; R250): the reset values as the commands read them (R33), the two ways back
to them, and one equation per case of `RDCR` (R212). -/

set_option autoImplicit false

namespace Sys2Proof.Machine

/-! ### The reset values (R33) -/

/-- Every SaveState register reads its reset value, whatever its kind. -/
theorem SaveState.read_zero (r : SaveReg) : SaveState.zero.read r = 0 := by
  cases r with
  | level c => simp [SaveState.read, SaveState.zero]
  | comp e => simp [SaveState.read, SaveState.zero]
  | event k => simp [SaveState.read, SaveState.zero, dataOf]
  | coins => simp [SaveState.read, SaveState.zero]
  | stat c f => cases f <;> simp [SaveState.read, SaveState.zero, readStat]
  | item c s => simp [SaveState.read, SaveState.zero, dataOfItem]

/-- The values of R33, as the control registers, the SaveState registers, the password entries and the stream show them. -/
def State.HasResetValues (u : State) : Prop :=
  u.readCtrl .balen = 0 ∧ u.readCtrl .crc = 0xFFFF ∧ u.readCtrl .key = 0 ∧ u.readCtrl .pwlen = 0 ∧
    u.readCtrl .grade = 0 ∧ u.readCtrl .bacap = 2048 ∧ u.readCtrl .pwcap = 260 ∧
    (∀ r, u.ss.read r = 0) ∧ (∀ i, u.pw.read i = 0) ∧ u.ba = []

/-- The configuration, the host's events and the response are not among the values of R33: they are free beside them. -/
theorem hasResetValues_reset (cfg : Params) (host : List HostEvent) (rsp : Option Response) :
    { State.reset with cfg := cfg, host := host, rsp := rsp }.HasResetValues :=
  ⟨rfl, rfl, rfl, rfl, rfl, rfl, rfl, SaveState.read_zero, Memory.read_nil, rfl⟩

/-! ### Reset (R250) and `CLR` (R211) -/

theorem step_of_reset_event (s : State) (rest : List HostEvent) :
    step { s with host := .reset :: rest } = .next { State.reset with cfg := s.cfg, host := rest } :=
  step_of_host_cons (s := { s with host := .reset :: rest }) rfl

theorem exec_clr (s : State) : exec .clr s = .next (s.toReset.ok 0) := rfl

/-! ### `RDCR` (R212) -/

theorem exec_rdcr_of_register {sel : Pos} {r : CtrlReg} (hsel : ctrlRegOf sel = some r) (s : State) :
    exec (.rdcr sel) s = .next (s.ok (s.readCtrl r)) := by
  show execRdcr sel s = _
  rw [execRdcr, hsel]
  rfl

theorem exec_rdcr_of_reserved {sel : Pos} (h : 6 < sel.toNat) (s : State) :
    exec (.rdcr sel) s = .next (s.failed .illegal) := by
  have hsel : ctrlRegOf sel = none := ctrlRegOf_eq_none.2 (decide_eq_true h)
  show execRdcr sel s = _
  rw [execRdcr, hsel]
  rfl

end Sys2Proof.Machine
end

section
/-! The statements about reset and the system commands. -/

set_option autoImplicit false

namespace Sys2Proof.Machine

/-- Settles O4: the three states are the reset state up to configuration, host events and response. -/
theorem resetGivesTheResetValues : Obligations.ResetGivesTheResetValues := by
  intro s rest
  refine ⟨_, _, step_of_reset_event s rest, rfl, rfl, exec_clr s, rfl, rfl, fun u hu => ?_⟩
  simp only [List.mem_cons, List.not_mem_nil, or_false] at hu
  obtain rfl | rfl | rfl := hu
  · exact hasResetValues_reset s.cfg rest none
  · exact hasResetValues_reset s.cfg s.host (some ⟨.ok, 0⟩)
  · exact hasResetValues_reset Config.params [] none

/-- Settles O17: `NOP` is a success that writes nothing. -/
theorem nopDoesNothing : Obligations.NopDoesNothing := fun _ => rfl

/-- Settles O18: the equations of `CLR` and of the reset event have the same right-hand side but for host and response. -/
theorem clrReturnsToReset : Obligations.ClrReturnsToReset := fun s => ⟨exec_clr s, step_of_reset_event s⟩

/-- Settles O19: each selector up to 6 names its register, and every other one is reserved (R24). -/
theorem rdcrReadsControlRegisters : Obligations.RdcrReadsControlRegisters := by
  intro s
  exact ⟨exec_rdcr_of_register (r := .balen) rfl s, exec_rdcr_of_register (r := .crc) rfl s,
    exec_rdcr_of_register (r := .key) rfl s, exec_rdcr_of_register (r := .pwlen) rfl s,
    exec_rdcr_of_register (r := .grade) rfl s, exec_rdcr_of_register (r := .bacap) rfl s,
    exec_rdcr_of_register (r := .pwcap) rfl s, fun _ h => exec_rdcr_of_reserved h s⟩

end Sys2Proof.Machine
end

section
/-! How a command can end (R226, R237), said once for all commands: it succeeds, or it answers one of the statuses of its row
and writes nothing. -/

set_option autoImplicit false

namespace Sys2Proof.Machine

/-- The two ways a command started in `s` can end: with `OK`, or with one of the statuses `errs` and no state written. -/
def State.Ends (s : State) (errs : List Status) (out : Result) : Prop :=
  (∃ t d, out = .next (State.ok t d)) ∨ ∃ e ∈ errs, out = .next (s.failed e)

namespace State.Ends

variable {s t : State} {errs errs' : List Status} {out : Result} {d : Data} {e : Status}

theorem of_ok (h : out = .next (t.ok d)) : s.Ends errs out := .inl ⟨t, d, h⟩

theorem of_failed (he : e ∈ errs) (h : out = .next (s.failed e)) : s.Ends errs out := .inr ⟨e, he, h⟩

theorem mono (hsub : errs ⊆ errs') (h : s.Ends errs out) : s.Ends errs' out :=
  h.imp_right fun ⟨e, he, hout⟩ => ⟨e, hsub he, hout⟩

/-- A check that refuses the command with `e`, and what follows it when it passes. -/
theorem of_check {c : Prop} (he : e ∈ errs) (hrefused : c → out = .next (s.failed e)) (hpassed : ¬ c → s.Ends errs out) :
    s.Ends errs out :=
  (Classical.em c).elim (fun h => of_failed he (hrefused h)) hpassed

/-- In the next state: an `OK` response, or the state before with a listed status in its response. -/
theorem of_next (h : s.Ends errs (.next t)) : (∃ d, t.rsp = some ⟨.ok, d⟩) ∨ ∃ e ∈ errs, t = s.failed e := by
  rcases h with ⟨u, d, hout⟩ | ⟨e, he, hout⟩
  · injection hout with ht
    exact .inl ⟨d, ht ▸ rfl⟩
  · injection hout with ht
    exact .inr ⟨e, he, ht⟩

end State.Ends

/-! ### The shared operations and checks -/

/-- A grade code is 0 or the code of a grade (R76). -/
theorem gradeCode_cases (g : GradeCode) : g = 0 ∨ ∃ gr : Grade, g = gr.code := by
  cases h : gradeOfCode g with
  | none => exact .inl (gradeOfCode_eq_none.1 h)
  | some gr => exact .inr ⟨gr, gradeOfCode_eq_some.1 h⟩

theorem ends_of_gradeCode {s : State} {errs : List Status} {i : GradeCode → Instr} (hmem : .illegal ∈ errs)
    (hzero : exec (i 0) s = .next (s.failed .illegal)) (hcode : ∀ gr : Grade, s.Ends errs (exec (i gr.code) s))
    (g : GradeCode) : s.Ends errs (exec (i g) s) := by
  obtain rfl | ⟨gr, rfl⟩ := gradeCode_cases g
  · exact .of_failed hmem hzero
  · exact hcode gr

theorem ends_append (bits : List Bool) (s : State) : s.Ends [.cap] (s.append bits) :=
  .of_check (by simp) State.append_of_overflow fun h => .of_ok (State.append_of_fits (Nat.not_lt.1 h))

theorem ends_onSymbols (effect : State → State) (v : State → Data) (s : State) :
    s.Ends [.range, .symbol] (s.onSymbols effect v) :=
  .of_check (by simp) (State.onSymbols_of_too_long effect v) fun hlong =>
    have hn := Nat.not_lt.1 hlong
    .of_check (by simp) (State.onSymbols_of_not_inDomain effect v hn) fun hdom =>
      .of_ok (State.onSymbols_of_inDomain effect v hn (not_not.1 hdom))

/-- A command that makes the input checks of R195 ends with the status of the one that fails, or goes on with a password. -/
theorem ends_of_passwordGrade {s : State} {errs : List Status} {i : Instr}
    (hi : i = .pwchk ∨ i = .decode ∨ ∃ t : GradeCode, t ≠ 0 ∧ i = .convert t) (hlength : .length ∈ errs)
    (hsymbol : .symbol ∈ errs) (hpassed : ∀ g, s.HoldsPassword g → s.Ends errs (exec i s)) : s.Ends errs (exec i s) := by
  cases hgrade : s.passwordGrade with
  | ok g => exact hpassed g (State.passwordGrade_eq_ok.1 hgrade)
  | error e =>
    refine .of_failed ?_ (exec_of_passwordGrade_error hgrade hi)
    obtain ⟨rfl, -⟩ | ⟨rfl, -⟩ := State.passwordGrade_eq_error hgrade
    · exact hlength
    · exact hsymbol

/-! ### The commands with a check -/

theorem exec_pushb (v : Data) (s : State) : exec (.pushb v) s = s.append (bitsOf 1 v.toNat) := rfl

theorem ends_pushn (n : Count) (v : Data) (s : State) : s.Ends [.range, .cap] (exec (.pushn n v) s) :=
  .of_check (by simp) (fun hn => exec_pushn_of_count_gt hn v s) fun hn => by
    rw [exec_pushn_of_count_le (Nat.not_lt.1 hn)]
    exact (ends_append _ s).mono (by simp)

theorem ends_repl (n : Count) (pos : Pos) (v : Data) (s : State) : s.Ends [.range] (exec (.repl n pos v) s) :=
  .of_check (by simp) (fun hout => exec_repl_of_outside hout v) fun h =>
    .of_ok (exec_repl_of_inside (by omega) (by omega) (by omega) v)

theorem ends_subb (lo hi : Pos) (s : State) : s.Ends [.range] (exec (.subb lo hi) s) :=
  .of_check (by simp) (fun hwide => exec_subb_of_wide hwide s) fun h => .of_ok (exec_subb_of_narrow (Nat.not_le.1 h) s)

theorem ends_rdcr (sel : Pos) (s : State) : s.Ends [.illegal] (exec (.rdcr sel) s) := by
  cases hsel : ctrlRegOf sel with
  | none => exact .of_failed (by simp) (exec_rdcr_of_reserved (of_decide_eq_true (ctrlRegOf_eq_none.1 hsel)) s)
  | some r => exact .of_ok (exec_rdcr_of_register hsel s)

theorem ends_sswr (sel : Pos) (v : Data) (s : State) : s.Ends [.illegal, .width] (exec (.sswr sel v) s) := by
  cases hsel : saveRegOf sel with
  | none => exact .of_failed (by simp) (exec_sswr_of_reserved hsel v s)
  | some r =>
    exact .of_check (by simp) (fun hwide => exec_sswr_of_too_wide hsel hwide s) fun h =>
      .of_ok (exec_sswr_of_accepts hsel (not_not.1 h) s)

theorem ends_ssrd (sel : Pos) (s : State) : s.Ends [.illegal] (exec (.ssrd sel) s) := by
  cases hsel : saveRegOf sel with
  | none => exact .of_failed (by simp) (exec_ssrd_of_reserved hsel s)
  | some r => exact .of_ok (exec_ssrd_of_register hsel s)

theorem ends_keygen (m : Pos) (s : State) : s.Ends [.range] (exec (.keygen m) s) :=
  .of_check (by simp) exec_keygen_of_outside fun h => .of_ok (exec_keygen_of_inside (Nat.not_lt.1 h))

theorem ends_encr (s : State) : s.Ends [.align, .cap] (exec .encr s) :=
  .of_check (by simp) exec_encr_of_unaligned fun h =>
    have halign := not_not.1 h
    .of_check (by simp) (exec_encr_of_overflow halign) fun hfull => .of_ok (exec_encr_of_fits halign (Nat.not_lt.1 hfull))

theorem ends_decr (s : State) : s.Ends [.range] (exec .decr s) :=
  .of_check (by simp) exec_decr_of_lt_two fun h => .of_ok (exec_decr_of_two_le (Nat.not_lt.1 h))

theorem ends_regrp (s : State) : s.Ends [.cap] (exec .regrp s) :=
  .of_check (by simp) exec_regrp_of_overflow fun h => .of_ok (exec_regrp_of_fits (Nat.not_lt.1 h))

theorem ends_pwwr (x : Pos) (b : Byte) (s : State) : s.Ends [.range] (exec (.pwwr x b) s) :=
  .of_check (by simp) (fun h => exec_pwwr_of_ge h b s) fun h => .of_ok (exec_pwwr_of_lt (Nat.not_le.1 h) b s)

theorem ends_pwrd (x : Pos) (s : State) : s.Ends [.range] (exec (.pwrd x) s) :=
  .of_check (by simp) (fun h => exec_pwrd_of_ge h s) fun h => .of_ok (exec_pwrd_of_lt (Nat.not_le.1 h) s)

theorem ends_pwlen (n : Pos) (s : State) : s.Ends [.range] (exec (.pwlen n) s) :=
  .of_check (by simp) (fun h => exec_pwlen_of_gt h s) fun h => .of_ok (exec_pwlen_of_le (Nat.not_lt.1 h) s)

theorem ends_pwchk (s : State) : s.Ends [.length, .symbol] (exec .pwchk s) :=
  ends_of_passwordGrade (.inl rfl) (by simp) (by simp) fun _ hholds => .of_ok (exec_pwchk_of_holdsPassword hholds)

/-! ### The pipelines -/

theorem exec_encode_zero (s : State) : exec (.encode 0) s = .next (s.failed .illegal) := rfl

theorem exec_convert_zero (s : State) : exec (.convert 0) s = .next (s.failed .illegal) := rfl

theorem exec_decode_of_holdsPassword {s : State} {g : Grade} (h : s.HoldsPassword g) :
    exec .decode s = .next ((s.decoded g).ok (g.code.setWidth 32)) := by
  show execDecode s = _
  rw [execDecode, State.passwordGrade_eq_ok.2 h]
  rfl

theorem ends_decode (s : State) : s.Ends [.length, .symbol] (exec .decode s) :=
  ends_of_passwordGrade (.inr (.inl rfl)) (by simp) (by simp) fun _ hholds => .of_ok (exec_decode_of_holdsPassword hholds)

theorem ends_convert (t : GradeCode) (s : State) :
    s.Ends [.illegal, .length, .symbol, .grade] (exec (.convert t) s) := by
  refine ends_of_gradeCode (by simp) (exec_convert_zero s) (fun target => ?_) t
  refine ends_of_passwordGrade (.inr (.inr ⟨_, code_ne_zero target, rfl⟩)) (by simp) (by simp) fun source hholds => ?_
  rw [exec_convert_of_holdsPassword hholds]
  split_ifs
  · exact .of_failed (by simp) rfl
  · exact .of_ok rfl
  · exact .of_ok rfl

/-! ### Every command -/

/-- R226 and R237 together: a command succeeds, or it fails with a status of its row and writes nothing. -/
theorem exec_ends (i : Instr) (s : State) : s.Ends (failuresOf i) (exec i s) := by
  cases i with
  | nop => exact .of_ok rfl
  | clr => exact .of_ok rfl
  | rdcr sel => exact ends_rdcr sel s
  | baclr => exact .of_ok rfl
  | pushb v => rw [exec_pushb]; exact ends_append _ s
  | pushn n v => exact ends_pushn n v s
  | repl n pos v => exact ends_repl n pos v s
  | subb lo hi => exact ends_subb lo hi s
  | sswr sel v => exact ends_sswr sel v s
  | ssrd sel => exact ends_ssrd sel s
  | pack g => exact ends_of_gradeCode (.head _) (exec_pack_zero s) (fun gr => .of_ok (exec_pack_code s gr)) g
  | unpack g => exact ends_of_gradeCode (.head _) (exec_unpack_zero s) (fun gr => .of_ok (exec_unpack_code s gr)) g
  | crcinit => exact .of_ok (exec_crcinit s)
  | crcupd b => exact .of_ok (exec_crcupd b s)
  | crcfin => exact .of_ok (exec_crcfin s)
  | keygen m => exact ends_keygen m s
  | encr => exact ends_encr s
  | decr => exact ends_decr s
  | regrp => exact ends_regrp s
  | ungrp => rw [exec_ungrp]; exact ends_onSymbols _ _ s
  | scram => rw [exec_scram]; exact ends_onSymbols _ _ s
  | unscr => rw [exec_unscr]; exact ends_onSymbols _ _ s
  | pwwr x b => exact ends_pwwr x b s
  | pwrd x => exact ends_pwrd x s
  | pwlen n => exact ends_pwlen n s
  | pwchk => exact ends_pwchk s
  | encode g => exact ends_of_gradeCode (.head _) (exec_encode_zero s) (fun gr => .of_ok (exec_encode_code s gr)) g
  | decode => exact ends_decode s
  | convert t => exact ends_convert t s

end Sys2Proof.Machine
end

section
/-! Every status of a row of R237 is returned: for each opcode and each status listed for it, a command and a state. -/

set_option autoImplicit false

namespace Sys2Proof.Machine

/-- Some command with opcode `op` fails with `e` in some state. -/
def Returns (op : BitVec 8) (e : Status) : Prop :=
  ∃ (j : Instr) (s : State), fieldOp (encode j) = op ∧ exec j s = .next (s.failed e)

/-! ### The states -/

/-- The reset state with `n` bits in the accumulator. -/
def resetWithBits (n : Nat) : State := State.reset.setBa (List.replicate n false)

/-- The reset state with `n` declared symbols, all 0 but the first. -/
def resetWithSymbols (n : BitVec 9) (first : Byte) : State := (State.reset.setPwlen n).setPw [(0, first)]

@[simp] theorem length_ba_resetWithBits (n : Nat) : (resetWithBits n).ba.length = n := List.length_replicate

theorem not_inDomain_resetWithSymbols : ¬ (resetWithSymbols 16 0x40).InDomain := fun h => absurd (h 0 (by decide)) (by decide)

theorem holdsPassword_resetWithSymbols : (resetWithSymbols 16 0x3F).HoldsPassword .bronze := by
  refine ⟨rfl, fun i _ => ?_⟩
  cases i with
  | zero => decide
  | succ i => exact Nat.zero_le _

/-! ### The checks that several commands share -/

theorem returns_of_onSymbols {i : Instr} {op : BitVec 8} (hop : fieldOp (encode i) = op) {effect : State → State}
    {v : State → Data} (hi : ∀ s, exec i s = s.onSymbols effect v) : Returns op .range ∧ Returns op .symbol :=
  ⟨⟨i, resetWithSymbols 511 0, hop, (hi _).trans (State.onSymbols_of_too_long _ _ (by decide))⟩,
    ⟨i, resetWithSymbols 16 0x40, hop,
      (hi _).trans (State.onSymbols_of_not_inDomain _ _ (by decide) not_inDomain_resetWithSymbols)⟩⟩

theorem returns_of_passwordGrade {i : Instr} {op : BitVec 8} (hop : fieldOp (encode i) = op)
    (hi : i = .pwchk ∨ i = .decode ∨ ∃ t : GradeCode, t ≠ 0 ∧ i = .convert t) :
    Returns op .length ∧ Returns op .symbol :=
  ⟨⟨i, resetWithSymbols 0 0, hop,
      exec_of_passwordGrade_error (State.passwordGrade_of_bad_length (by decide) (by decide) (by decide)) hi⟩,
    ⟨i, resetWithSymbols 16 0x40, hop,
      exec_of_passwordGrade_error (State.passwordGrade_of_not_inDomain (.inl rfl) not_inDomain_resetWithSymbols) hi⟩⟩

/-! ### Every command -/

/-- R237: every status of a command's row is returned by some command of its opcode. -/
theorem returns_of_mem_failuresOf (i : Instr) : ∀ e ∈ failuresOf i, Returns (fieldOp (encode i)) e := by
  cases i <;> simp only [encode, fieldOp_assemble, failuresOf, List.forall_mem_cons, List.not_mem_nil, false_imp_iff,
    implies_true, and_true]
  case rdcr => exact ⟨.rdcr 7, State.reset, rfl, exec_rdcr_of_reserved (by decide) _⟩
  case pushb =>
    exact ⟨.pushb 0, resetWithBits 2048, rfl, (exec_pushb ..).trans (State.append_of_overflow (by simp))⟩
  case pushn =>
    exact ⟨⟨.pushn 33 0, State.reset, rfl, exec_pushn_of_count_gt (by decide) _ _⟩,
      ⟨.pushn 1 0, resetWithBits 2048, rfl, exec_pushn_of_overflow (by decide) (by simp) _⟩⟩
  case repl => exact ⟨.repl 33 0 0, State.reset, rfl, exec_repl_of_outside (.inl (by decide)) _⟩
  case subb => exact ⟨.subb 0 32, State.reset, rfl, exec_subb_of_wide (by decide) _⟩
  case sswr =>
    exact ⟨⟨.sswr 0x00F 0, State.reset, rfl, exec_sswr_of_reserved (by decide) _ _⟩,
      ⟨.sswr 0x000 128, State.reset, rfl, exec_sswr_of_too_wide (r := .level 0) (by decide) (by decide) _⟩⟩
  case ssrd => exact ⟨.ssrd 0x00F, State.reset, rfl, exec_ssrd_of_reserved (by decide) _⟩
  case pack => exact ⟨.pack 0, State.reset, rfl, exec_pack_zero _⟩
  case unpack => exact ⟨.unpack 0, State.reset, rfl, exec_unpack_zero _⟩
  case keygen => exact ⟨.keygen 1, State.reset, rfl, exec_keygen_of_outside (by decide)⟩
  case encr =>
    exact ⟨⟨.encr, resetWithBits 1, rfl, exec_encr_of_unaligned (by simp)⟩,
      ⟨.encr, resetWithBits 2048, rfl, exec_encr_of_overflow (by simp) (by simp)⟩⟩
  case decr => exact ⟨.decr, State.reset, rfl, exec_decr_of_lt_two (by decide)⟩
  case regrp =>
    exact ⟨.regrp, resetWithBits 2048, rfl,
      exec_regrp_of_overflow (Nat.lt_of_not_le (mt length_regroup_le_iff.1 (by simp)))⟩
  case ungrp => exact returns_of_onSymbols (i := .ungrp) rfl exec_ungrp
  case scram => exact returns_of_onSymbols (i := .scram) rfl exec_scram
  case unscr => exact returns_of_onSymbols (i := .unscr) rfl exec_unscr
  case pwwr => exact ⟨.pwwr 260 0, State.reset, rfl, exec_pwwr_of_ge (by decide) _ _⟩
  case pwrd => exact ⟨.pwrd 260, State.reset, rfl, exec_pwrd_of_ge (by decide) _⟩
  case pwlen => exact ⟨.pwlen 512, State.reset, rfl, exec_pwlen_of_gt (by decide) _⟩
  case pwchk => exact returns_of_passwordGrade (i := .pwchk) rfl (.inl rfl)
  case encode => exact ⟨.encode 0, State.reset, rfl, exec_encode_zero _⟩
  case decode => exact returns_of_passwordGrade (i := .decode) rfl (.inr (.inl rfl))
  case convert =>
    obtain ⟨hlength, hsymbol⟩ :=
      returns_of_passwordGrade (i := .convert 1) rfl (.inr (.inr ⟨1, by decide, rfl⟩))
    exact ⟨⟨.convert 0, State.reset, rfl, exec_convert_zero _⟩, hlength, hsymbol,
      ⟨.convert Grade.gold.code, resetWithSymbols 16 0x3F, rfl,
        exec_convert_upwards holdsPassword_resetWithSymbols (by decide)⟩⟩

end Sys2Proof.Machine
end

section
/-! The statements about failures and statuses (60_exceptions.md). -/

set_option autoImplicit false

namespace Sys2Proof.Machine

/-- Settles O11: a command that does not end with `OK` ends in the other way of `State.Ends`. -/
theorem failedCommandWritesNoState : Obligations.FailedCommandWritesNoState := by
  intro i s t r hexec hrsp hne
  obtain ⟨d, hok⟩ | ⟨e, -, rfl⟩ := State.Ends.of_next (hexec ▸ exec_ends i s)
  · exact absurd (congrArg Response.status (Option.some.inj (hrsp.symm.trans hok))) hne
  · exact congrArg (fun r => { s with rsp := r }) hrsp

/-- Settles O12: no status beyond the row by `exec_ends`, and none too many by a command and a state for each. -/
theorem statusesOfEveryCommand : Obligations.StatusesOfEveryCommand := by
  refine ⟨fun i s t r hexec hrsp => ?_, fun i e he => returns_of_mem_failuresOf i e he⟩
  obtain ⟨d, hok⟩ | ⟨e, he, rfl⟩ := State.Ends.of_next (hexec ▸ exec_ends i s)
  · exact .inl (congrArg Response.status (Option.some.inj (hrsp.symm.trans hok)))
  · exact .inr (congrArg Response.status (Option.some.inj hrsp) ▸ he)

end Sys2Proof.Machine
end

section
/-! The decoder and the encoder, each the inverse of the other (R79, R83): a legal word is decoded by the row its opcode
selects, and a word that the row accepts is put together again from the fields of its format. -/

set_option autoImplicit false

namespace Sys2Proof.Machine

/-! ### The row of an opcode -/

/-- A word is legal exactly when the row its opcode selects accepts it, and it is the command that the row builds. -/
theorem decode_eq_ok_iff {w : CmdWord} {i : Instr} :
    decode w = .ok i ↔
      ∃ r, opcodeTable.find? (fun r => r.op == fieldOp w) = some r ∧ r.accepts w = true ∧ r.build w = i := by
  unfold decode
  cases hrow : opcodeTable.find? (fun r => r.op == fieldOp w) with
  | none => simp
  | some r => by_cases haccepts : r.accepts w = true <;> simp [haccepts]

/-- A word that no row accepts is illegal, whichever of the two reasons of R79 it has. -/
theorem exists_decode_eq_error {w : CmdWord} (h : ∀ r ∈ opcodeTable, ¬ r.accepts w = true) : ∃ e, decode w = .error e := by
  cases hdecode : decode w with
  | error e => exact ⟨e, rfl⟩
  | ok i =>
    obtain ⟨r, hrow, haccepts, -⟩ := decode_eq_ok_iff.1 hdecode
    exact absurd haccepts (h r (List.mem_of_find?_eq_some hrow))

theorem runWord_of_decode_error {w : CmdWord} {e : Illegal} (h : decode w = .error e) (s : State) :
    runWord w s = .next (s.failed .illegal) := by
  simp only [runWord, h]
  rfl

/-! ### Decoding an assembled word

One fact per format (R71): the row of the opcode reads each operand from the field it was assembled into. -/

section
variable {op : BitVec 8}

/-- The row that an opcode selects. -/
abbrev HasRow (op : BitVec 8) (format : Format) (build : CmdWord → Instr) : Prop :=
  opcodeTable.find? (fun r => r.op == op) = some ⟨op, format, build⟩

theorem decode_of_accepts {format : Format} {build : CmdWord → Instr} {w : CmdWord} (hrow : HasRow op format build)
    (hop : fieldOp w = op) (haccepts : (w &&& format.mask == op.setWidth 64 <<< 56) = true) :
    decode w = .ok (build w) :=
  decode_eq_ok_iff.2 ⟨⟨op, format, build⟩, hop ▸ hrow, haccepts, rfl⟩

theorem decode_format_z {i : Instr} (hrow : HasRow op .z fun _ => i) : decode (assemble op 0 0 0 0) = .ok i :=
  decode_of_accepts hrow (fieldOp_assemble ..) (Laws.format_z op)

theorem decode_format_g {f : GradeCode → Instr} (hrow : HasRow op .g fun w => f (fieldG w)) (g : GradeCode) :
    decode (assemble op 0 g 0 0) = .ok (f g) := by
  simpa using decode_of_accepts hrow (fieldOp_assemble ..) (Laws.format_g op g)

theorem decode_format_a {f : Pos → Instr} (hrow : HasRow op .a fun w => f (fieldA w)) (a : Pos) :
    decode (assemble op 0 0 a 0) = .ok (f a) := by
  simpa using decode_of_accepts hrow (fieldOp_assemble ..) (Laws.format_a op a)

theorem decode_format_v {f : Data → Instr} (hrow : HasRow op .v fun w => f (fieldV w)) (v : Data) :
    decode (assemble op 0 0 0 v) = .ok (f v) := by
  simpa using decode_of_accepts hrow (fieldOp_assemble ..) (Laws.format_v op v)

theorem decode_format_v8 {f : Byte → Instr} (hrow : HasRow op .v8 fun w => f (fieldV8 w)) (b : Byte) :
    decode (assemble op 0 0 0 (b.setWidth 32)) = .ok (f b) := by
  simpa using decode_of_accepts hrow (fieldOp_assemble ..) (Laws.format_v8 op b)

theorem decode_format_av {f : Pos → Data → Instr} (hrow : HasRow op .av fun w => f (fieldA w) (fieldV w)) (a : Pos) (v : Data) :
    decode (assemble op 0 0 a v) = .ok (f a v) := by
  simpa using decode_of_accepts hrow (fieldOp_assemble ..) (Laws.format_av op a v)

theorem decode_format_av8 {f : Pos → Byte → Instr} (hrow : HasRow op .av8 fun w => f (fieldA w) (fieldV8 w)) (a : Pos)
    (b : Byte) : decode (assemble op 0 0 a (b.setWidth 32)) = .ok (f a b) := by
  simpa using decode_of_accepts hrow (fieldOp_assemble ..) (Laws.format_av8 op a b)

theorem decode_format_nv {f : Count → Data → Instr} (hrow : HasRow op .nv fun w => f (fieldN w) (fieldV w)) (n : Count)
    (v : Data) : decode (assemble op n 0 0 v) = .ok (f n v) := by
  simpa using decode_of_accepts hrow (fieldOp_assemble ..) (Laws.format_nv op n v)

theorem decode_format_nav {f : Count → Pos → Data → Instr}
    (hrow : HasRow op .nav fun w => f (fieldN w) (fieldA w) (fieldV w)) (n : Count) (a : Pos) (v : Data) :
    decode (assemble op n 0 a v) = .ok (f n a v) := by
  simpa using decode_of_accepts hrow (fieldOp_assemble ..) (Laws.format_nav op n a v)

theorem decode_format_ab {f : Pos → Pos → Instr} (hrow : HasRow op .ab fun w => f (fieldA w) (fieldB w)) (a b : Pos) :
    decode (assemble op 0 0 a (b.setWidth 32)) = .ok (f a b) := by
  simpa using decode_of_accepts hrow (fieldOp_assemble ..) (Laws.format_ab op a b)

end

/-! ### Assembling an accepted word -/

/-- A field put back where it was read is the word under the field's mask. -/
theorem setWidth_extractLsb'_shiftLeft (w : CmdWord) (start len : Nat) :
    (w.extractLsb' start len).setWidth 64 <<< start = w &&& (BitVec.allOnes len).setWidth 64 <<< start := by
  refine BitVec.eq_of_getLsbD_eq fun k hk => ?_
  by_cases hstart : k < start
  · simp [hstart]
  · by_cases hlen : k - start < len <;>
      simp [hk, hstart, hlen, show start + (k - start) = k by omega]

/-- The word put together from the fields of `w` that a format leaves free (R71), under an opcode. -/
def reassemble (op : BitVec 8) (w : CmdWord) : Format → CmdWord
  | .z => assemble op 0 0 0 0
  | .g => assemble op 0 (fieldG w) 0 0
  | .a => assemble op 0 0 (fieldA w) 0
  | .v => assemble op 0 0 0 (fieldV w)
  | .v8 => assemble op 0 0 0 ((fieldV8 w).setWidth 32)
  | .av => assemble op 0 0 (fieldA w) (fieldV w)
  | .av8 => assemble op 0 0 (fieldA w) ((fieldV8 w).setWidth 32)
  | .nv => assemble op (fieldN w) 0 0 (fieldV w)
  | .nav => assemble op (fieldN w) 0 (fieldA w) (fieldV w)
  | .ab => assemble op 0 0 (fieldA w) ((fieldB w).setWidth 32)

/-- The free fields of a format are the bits its mask leaves out (R71). -/
theorem reassemble_eq_or (op : BitVec 8) (w : CmdWord) (format : Format) :
    reassemble op w format = op.setWidth 64 <<< 56 ||| (w &&& ~~~ format.mask) := by
  have hN : (fieldN w).setWidth 64 <<< 50 = w &&& 0x00FC000000000000 := setWidth_extractLsb'_shiftLeft w 50 6
  have hG : (fieldG w).setWidth 64 <<< 48 = w &&& 0x0003000000000000 := setWidth_extractLsb'_shiftLeft w 48 2
  have hA : (fieldA w).setWidth 64 <<< 32 = w &&& 0x000007FF00000000 := setWidth_extractLsb'_shiftLeft w 32 11
  have hV : (fieldV w).setWidth 64 = w &&& 0x00000000FFFFFFFF := by
    simpa [fieldV] using setWidth_extractLsb'_shiftLeft w 0 32
  have hV8 : (fieldV8 w).setWidth 64 = w &&& 0x00000000000000FF := by
    simpa [fieldV8] using setWidth_extractLsb'_shiftLeft w 0 8
  have hB : (fieldB w).setWidth 64 = w &&& 0x00000000000007FF := by
    simpa [fieldB] using setWidth_extractLsb'_shiftLeft w 0 11
  cases format <;>
    simp [reassemble, assemble, hN, hG, hA, hV, hV8, hB, Format.mask, BitVec.or_assoc, ← BitVec.and_or_distrib_left]

/-- A word that a row accepts has nothing outside the opcode and the free fields. -/
theorem reassemble_of_accepts {r : OpRow} {w : CmdWord} (h : r.accepts w = true) : reassemble r.op w r.format = w := by
  have hmatch : r.op.setWidth 64 <<< 56 = w &&& r.format.mask := (beq_iff_eq.1 h).symm
  rw [reassemble_eq_or, hmatch, ← BitVec.and_or_distrib_left, BitVec.or_not_self, BitVec.and_allOnes]

/-- Every row builds the command whose word has the row's opcode and the free fields as operands. -/
theorem encode_build (w : CmdWord) : ∀ r ∈ opcodeTable, encode (r.build w) = reassemble r.op w r.format := by
  simp only [opcodeTable, systemRows, bpuRows, schemaRows, cipherRows, regrouperRows, pipelineRows, List.forall_mem_append,
    List.forall_mem_cons, List.not_mem_nil, false_imp_iff, implies_true, encode, reassemble, and_self]
/-! ### The statements -/

/-- Settles O5: the row of each command, and its operands out of the fields of its format. -/
theorem decodeOfEncodeIsTheCommand : Obligations.DecodeOfEncodeIsTheCommand := by
  intro i
  cases i with
  | nop | clr | baclr | crcinit | crcfin | encr | decr | regrp | ungrp | scram | unscr | pwchk | decode =>
    exact decode_format_z rfl
  | pack g | unpack g | encode g | convert g => exact decode_format_g rfl g
  | rdcr a | ssrd a | keygen a | pwrd a | pwlen a => exact decode_format_a rfl a
  | pushb v => exact decode_format_v rfl v
  | crcupd b => exact decode_format_v8 rfl b
  | sswr a v => exact decode_format_av rfl a v
  | pwwr a b => exact decode_format_av8 rfl a b
  | pushn n v => exact decode_format_nv rfl n v
  | repl n a v => exact decode_format_nav rfl n a v
  | subb lo hi => exact decode_format_ab rfl lo hi

/-- Settles O6: the command that the accepting row builds is encoded from the fields the word is made of. -/
theorem encodeOfDecodeIsTheWord : Obligations.EncodeOfDecodeIsTheWord := by
  intro w i h
  obtain ⟨r, hrow, haccepts, rfl⟩ := decode_eq_ok_iff.1 h
  rw [encode_build w r (List.mem_of_find?_eq_some hrow), reassemble_of_accepts haccepts]

/-- Settles O2: no row accepts the word, so the decoder answers an error. -/
theorem illegalWordFailsAndChangesNothing : Obligations.IllegalWordFailsAndChangesNothing := by
  intro s w rest hhost hnone
  obtain ⟨e, hdecode⟩ := exists_decode_eq_error (w := w) fun r hr haccepts => hnone r hr (beq_iff_eq.1 haccepts)
  rw [step_of_host_cons hhost]
  exact runWord_of_decode_error hdecode (s.setHost rest)

/-- Settles O7: each word is decoded by evaluation. -/
theorem specWordsDecode : Obligations.SpecWordsDecode :=
  ⟨rfl, rfl, rfl, rfl, rfl, rfl, rfl, rfl, rfl, rfl, rfl, rfl⟩

end Sys2Proof.Machine
end

section
/-! What every command keeps (R26, R30, R31): whichever way it ends, the configuration and the host's events stay, the
stream stays within its capacity and the password buffer stays canonical. Then the same for a step. -/

set_option autoImplicit false

namespace Sys2Proof.Machine

/-- What no command changes from `s` to `t`, and the two bounds of the invariant it keeps. -/
structure State.Frame (s t : State) : Prop where
  cfg : t.cfg = s.cfg
  host : t.host = s.host
  ba : s.ba.length ≤ 2048 → t.ba.length ≤ 2048
  pw : s.pw.wf = true → t.pw.wf = true

namespace State.Frame

variable {s t u : State}

theorem refl (s : State) : s.Frame s := ⟨rfl, rfl, id, id⟩

theorem trans (h : s.Frame t) (h' : t.Frame u) : s.Frame u :=
  ⟨h'.cfg.trans h.cfg, h'.host.trans h.host, h'.ba ∘ h.ba, h'.pw ∘ h.pw⟩

theorem inv (h : s.Frame t) (hinv : s.Inv) : t.Inv := hinv.imp h.ba h.pw

end State.Frame

/-! ### The frame of each kind of write -/

section
variable (s : State)

theorem frame_setBa {ba : List Bool} (h : s.ba.length ≤ 2048 → ba.length ≤ 2048) : s.Frame (s.setBa ba) :=
  ⟨rfl, rfl, h, id⟩

theorem frame_setPw {pw : Memory} (h : s.pw.wf = true → pw.wf = true) : s.Frame (s.setPw pw) := ⟨rfl, rfl, id, h⟩

theorem frame_toReset : s.Frame s.toReset := ⟨rfl, rfl, fun _ => Nat.zero_le _, fun _ => rfl⟩

/-- Groups written from index 0 on, as many as the buffer has entries. -/
theorem frame_setPw_writeGroups {gs : List Group} (h : gs.length ≤ 260) : s.Frame (s.setPw (s.pw.writeGroups gs)) :=
  frame_setPw s fun hwf => Memory.wf_writeGroups hwf gs h

/-- The framed payload of every grade fits the bit memory, and its password the buffer. -/
theorem frame_encoded (g : Grade) : s.Frame (s.encoded g) := by
  refine ⟨rfl, rfl, fun _ => ?_, fun hwf => wf_encoded hwf g⟩
  rw [State.encoded_ba, length_frame, length_pack]
  cases g <;> decide

variable {s}

/-- The stream of at most 260 symbols has at most 1404 bits. -/
theorem length_ungroup_le {gs : List Group} (h : gs.length ≤ 260) : (ungroup gs).length ≤ 2048 := by
  rw [length_ungroup]
  omega

theorem frame_decoded {g : Grade} (h : s.HoldsPassword g) : s.Frame (s.decoded g) := by
  refine ⟨rfl, rfl, fun _ => ?_, id⟩
  rw [State.decoded_ba, length_decrypt]
  refine length_ungroup_le ?_
  rw [length_unscramble, State.length_groups, h.1]
  exact passwordLength_le g

end

/-! ### Every command -/

/-- The command completes, in a state that keeps the frame of `s`. -/
def State.Keeps (s : State) (out : Result) : Prop := ∃ t, out = .next t ∧ s.Frame t

namespace State.Keeps

variable {s t : State} {out : Result} {d : Data} {e : Status}

theorem of_ok (h : out = .next (t.ok d)) (hframe : s.Frame t) : s.Keeps out :=
  ⟨t.ok d, h, hframe.cfg, hframe.host, hframe.ba, hframe.pw⟩

theorem of_failed (h : out = .next (s.failed e)) : s.Keeps out := ⟨s.failed e, h, rfl, rfl, id, id⟩

/-- A check that refuses the command, and what follows it when it passes. -/
theorem of_check {c : Prop} (hrefused : c → out = .next (s.failed e)) (hpassed : ¬ c → s.Keeps out) : s.Keeps out :=
  (Classical.em c).elim (fun h => of_failed (hrefused h)) hpassed

end State.Keeps

theorem keeps_append (bits : List Bool) (s : State) : s.Keeps (s.append bits) :=
  .of_check State.append_of_overflow fun h =>
    have hfit := Nat.not_lt.1 h
    .of_ok (State.append_of_fits hfit) (frame_setBa s fun _ => by rwa [List.length_append])

theorem keeps_onSymbols {s : State} {effect : State → State} {v : State → Data}
    (h : s.pwlen.toNat ≤ 260 → s.Frame (effect s)) : s.Keeps (s.onSymbols effect v) :=
  .of_check (State.onSymbols_of_too_long effect v) fun hlong =>
    have hn := Nat.not_lt.1 hlong
    .of_check (State.onSymbols_of_not_inDomain effect v hn) fun hdom =>
      .of_ok (State.onSymbols_of_inDomain effect v hn (not_not.1 hdom)) (h hn)

theorem keeps_of_gradeCode {s : State} {i : GradeCode → Instr} (hzero : exec (i 0) s = .next (s.failed .illegal))
    (hcode : ∀ gr : Grade, s.Keeps (exec (i gr.code) s)) (g : GradeCode) : s.Keeps (exec (i g) s) := by
  obtain rfl | ⟨gr, rfl⟩ := gradeCode_cases g
  · exact .of_failed hzero
  · exact hcode gr

theorem keeps_of_passwordGrade {s : State} {i : Instr}
    (hi : i = .pwchk ∨ i = .decode ∨ ∃ t : GradeCode, t ≠ 0 ∧ i = .convert t)
    (hpassed : ∀ g, s.HoldsPassword g → s.Keeps (exec i s)) : s.Keeps (exec i s) := by
  cases hgrade : s.passwordGrade with
  | ok g => exact hpassed g (State.passwordGrade_eq_ok.1 hgrade)
  | error e => exact .of_failed (exec_of_passwordGrade_error hgrade hi)

theorem keeps_sswr (sel : Pos) (v : Data) (s : State) : s.Keeps (exec (.sswr sel v) s) := by
  cases hsel : saveRegOf sel with
  | none => exact .of_failed (exec_sswr_of_reserved hsel v s)
  | some r =>
    exact .of_check (fun hwide => exec_sswr_of_too_wide hsel hwide s) fun h =>
      .of_ok (exec_sswr_of_accepts hsel (not_not.1 h) s) ⟨rfl, rfl, id, id⟩

theorem keeps_convert (t : GradeCode) (s : State) : s.Keeps (exec (.convert t) s) := by
  refine keeps_of_gradeCode (exec_convert_zero s) (fun target => ?_) t
  refine keeps_of_passwordGrade (.inr (.inr ⟨_, code_ne_zero target, rfl⟩)) fun source hholds => ?_
  rw [exec_convert_of_holdsPassword hholds]
  split_ifs
  · exact .of_failed rfl
  · exact .of_ok rfl ⟨rfl, rfl, id, id⟩
  · exact .of_ok rfl ((frame_decoded hholds).trans (frame_encoded _ target))

/-- A command that writes no state but its response. -/
def ReadsOnly (i : Instr) : Prop := ∀ s, ∃ r, exec i s = .next { s with rsp := some r }

theorem ReadsOnly.keeps {i : Instr} (h : ReadsOnly i) (s : State) : s.Keeps (exec i s) := by
  obtain ⟨r, hr⟩ := h s
  exact ⟨_, hr, rfl, rfl, id, id⟩

theorem readsOnly_rdcr (sel : Pos) : ReadsOnly (.rdcr sel) := fun s => by
  cases hsel : ctrlRegOf sel with
  | none => exact ⟨_, exec_rdcr_of_reserved (of_decide_eq_true (ctrlRegOf_eq_none.1 hsel)) s⟩
  | some r => exact ⟨_, exec_rdcr_of_register hsel s⟩

theorem readsOnly_subb (lo hi : Pos) : ReadsOnly (.subb lo hi) := fun s => by
  rcases Nat.lt_or_ge hi.toNat (lo.toNat + 32) with hnarrow | hwide
  · exact ⟨_, exec_subb_of_narrow hnarrow s⟩
  · exact ⟨_, exec_subb_of_wide hwide s⟩

theorem readsOnly_ssrd (sel : Pos) : ReadsOnly (.ssrd sel) := fun s => by
  cases hsel : saveRegOf sel with
  | none => exact ⟨_, exec_ssrd_of_reserved hsel s⟩
  | some r => exact ⟨_, exec_ssrd_of_register hsel s⟩

theorem readsOnly_pwrd (x : Pos) : ReadsOnly (.pwrd x) := fun s => by
  rcases Nat.lt_or_ge x.toNat 260 with hlt | hge
  · exact ⟨_, exec_pwrd_of_lt hlt s⟩
  · exact ⟨_, exec_pwrd_of_ge hge s⟩

theorem readsOnly_pwchk : ReadsOnly .pwchk := fun s => by
  cases hgrade : s.passwordGrade with
  | ok g => exact ⟨_, exec_pwchk_of_holdsPassword (State.passwordGrade_eq_ok.1 hgrade)⟩
  | error e => exact ⟨_, exec_of_passwordGrade_error hgrade (.inl rfl)⟩

/-- Every command completes and keeps the frame. -/
theorem exec_keeps (i : Instr) (s : State) : s.Keeps (exec i s) := by
  cases i with
  | nop => exact .of_ok rfl (.refl s)
  | clr => exact .of_ok (exec_clr s) (frame_toReset s)
  | rdcr sel => exact (readsOnly_rdcr sel).keeps s
  | baclr => exact .of_ok (t := s.setBa []) rfl (frame_setBa s fun _ => Nat.zero_le _)
  | pushb v => rw [exec_pushb]; exact keeps_append _ s
  | pushn n v =>
    refine .of_check (fun hn => exec_pushn_of_count_gt hn v s) fun hn => ?_
    rw [exec_pushn_of_count_le (Nat.not_lt.1 hn)]
    exact keeps_append _ s
  | repl n pos v =>
    exact .of_check (fun hout => exec_repl_of_outside hout v) fun h =>
      .of_ok (exec_repl_of_inside (by omega) (by omega) (by omega) v)
        (frame_setBa s fun hlen => by rwa [length_memWrite])
  | subb lo hi => exact (readsOnly_subb lo hi).keeps s
  | sswr sel v => exact keeps_sswr sel v s
  | ssrd sel => exact (readsOnly_ssrd sel).keeps s
  | pack g =>
    refine keeps_of_gradeCode (exec_pack_zero s) (fun gr => .of_ok (exec_pack_code s gr) (frame_setBa s fun _ => ?_)) g
    rw [length_pack]
    cases gr <;> decide
  | unpack g =>
    exact keeps_of_gradeCode (exec_unpack_zero s) (fun gr => .of_ok (exec_unpack_code s gr) ⟨rfl, rfl, id, id⟩) g
  | crcinit => exact .of_ok (exec_crcinit s) ⟨rfl, rfl, id, id⟩
  | crcupd b => exact .of_ok (exec_crcupd b s) ⟨rfl, rfl, id, id⟩
  | crcfin => exact .of_ok (exec_crcfin s) ⟨rfl, rfl, id, id⟩
  | keygen m =>
    exact .of_check exec_keygen_of_outside fun h => .of_ok (exec_keygen_of_inside (Nat.not_lt.1 h)) ⟨rfl, rfl, id, id⟩
  | encr =>
    refine .of_check exec_encr_of_unaligned fun h => .of_check (exec_encr_of_overflow (not_not.1 h)) fun hfull => ?_
    have hfit := Nat.not_lt.1 hfull
    exact .of_ok (exec_encr_of_fits (not_not.1 h) hfit) (frame_setBa s fun _ => by rwa [length_encrypt])
  | decr =>
    exact .of_check exec_decr_of_lt_two fun h => .of_ok (exec_decr_of_two_le (Nat.not_lt.1 h))
      ⟨rfl, rfl, fun hlen => (length_decrypt s.ba).trans_le hlen, id⟩
  | regrp =>
    refine .of_check exec_regrp_of_overflow fun h => .of_ok (exec_regrp_of_fits (Nat.not_lt.1 h)) ⟨rfl, rfl, id, ?_⟩
    exact (frame_setPw_writeGroups s (Nat.not_lt.1 h)).pw
  | ungrp =>
    rw [exec_ungrp]
    exact keeps_onSymbols fun hn => frame_setBa s fun _ => length_ungroup_le (by rwa [State.length_groups])
  | scram =>
    rw [exec_scram]
    exact keeps_onSymbols fun hn => frame_setPw_writeGroups s (by rwa [length_scramble, State.length_groups])
  | unscr =>
    rw [exec_unscr]
    exact keeps_onSymbols fun hn => frame_setPw_writeGroups s (by rwa [length_unscramble, State.length_groups])
  | pwwr x b =>
    exact .of_check (fun h => exec_pwwr_of_ge h b s) fun h =>
      .of_ok (exec_pwwr_of_lt (Nat.not_le.1 h) b s) (frame_setPw s fun hwf => Memory.wf_write hwf (Nat.not_le.1 h) b)
  | pwrd x => exact (readsOnly_pwrd x).keeps s
  | pwlen n =>
    exact .of_check (fun h => exec_pwlen_of_gt h s) fun h => .of_ok (exec_pwlen_of_le (Nat.not_lt.1 h) s) ⟨rfl, rfl, id, id⟩
  | pwchk => exact readsOnly_pwchk.keeps s
  | encode g =>
    exact keeps_of_gradeCode (exec_encode_zero s) (fun gr => .of_ok (exec_encode_code s gr) (frame_encoded s gr)) g
  | decode =>
    exact keeps_of_passwordGrade (.inr (.inl rfl)) fun g hholds =>
      .of_ok (exec_decode_of_holdsPassword hholds) (frame_decoded hholds)
  | convert t => exact keeps_convert t s

/-! ### Every step -/

theorem runEvent_keeps (e : HostEvent) (s : State) : s.Keeps (runEvent s e) := by
  cases e with
  | reset => exact ⟨s.toReset, rfl, frame_toReset s⟩
  | command w =>
    show s.Keeps (runWord w s)
    cases hdecode : decode w with
    | error e => exact .of_failed (runWord_of_decode_error hdecode s)
    | ok i => rw [runWord_of_decode_ok hdecode]; exact exec_keeps i s

theorem step_of_host_nil {s : State} (h : s.host = []) : step s = .next (s.setRsp none) := by
  simp only [step, portStep, h]

/-- A step takes the first of the host's events and keeps the frame. -/
theorem step_keeps (s : State) : (s.setHost s.host.tail).Keeps (step s) := by
  cases hhost : s.host with
  | nil => exact ⟨s.setRsp none, step_of_host_nil hhost, rfl, hhost, id, id⟩
  | cons e rest => rw [step_of_host_cons hhost]; exact runEvent_keeps e _

theorem step_frame {s t : State} (h : step s = .next t) : (s.setHost s.host.tail).Frame t := by
  obtain ⟨u, hu, hframe⟩ := step_keeps s
  obtain rfl : t = u := by injection h.symm.trans hu
  exact hframe

end Sys2Proof.Machine
end

section
/-! The statements about every step and every command. -/

set_option autoImplicit false

namespace Sys2Proof.Machine

/-- Settles O8: the frame of a step; taking the event from the host's list touches neither bound. -/
theorem stepKeepsTheInvariant : Obligations.StepKeepsTheInvariant := fun _ _ hinv hstep => (step_frame hstep).inv hinv

/-- Settles O15: the frame of a step. -/
theorem stepKeepsConfigurationAndOrder : Obligations.StepKeepsConfigurationAndOrder := fun _ _ hstep =>
  ⟨(step_frame hstep).cfg, (step_frame hstep).host⟩

/-- Settles O10: a command ends in one of the two ways of `State.Ends`, and a failure's data is 0. -/
theorem everyCommandResponds : Obligations.EveryCommandResponds := by
  intro i s
  obtain ⟨t, d, hok⟩ | ⟨e, -, hfailed⟩ := exec_ends i s
  · exact ⟨_, ⟨.ok, d⟩, hok, rfl, fun hne => absurd rfl hne⟩
  · exact ⟨_, ⟨e, 0⟩, hfailed, rfl, fun _ => rfl⟩

/-- Settles O14: no meaning looks at the field. -/
theorem earlierResponseIsNeverRead : Obligations.EarlierResponseIsNeverRead := by
  intro i s r
  cases i <;> rfl

/-- Settles O13: each of the five only reads, and what it reads does not hang on the response. -/
theorem readingCommandsChangeNoState : Obligations.ReadingCommandsChangeNoState := by
  intro i s hcommand
  have hreads : ReadsOnly i := by
    obtain ⟨lo, hi, rfl⟩ | ⟨x, rfl⟩ | ⟨sel, rfl⟩ | ⟨sel, rfl⟩ | rfl := hcommand
    · exact readsOnly_subb lo hi
    · exact readsOnly_pwrd x
    · exact readsOnly_ssrd sel
    · exact readsOnly_rdcr sel
    · exact readsOnly_pwchk
  obtain ⟨r, hr⟩ := hreads s
  exact ⟨r, hr, (earlierResponseIsNeverRead i s (some r)).trans hr⟩

/-- Settles O3: the port with nothing on the host's list. -/
theorem idleBlockKeepsAllState : Obligations.IdleBlockKeepsAllState := fun _ => step_of_host_nil

/-- Settles O9: the stream and the buffer are empty. -/
theorem resetMeetsTheInvariant : Obligations.ResetMeetsTheInvariant := ⟨Nat.zero_le _, rfl⟩

/-- Settles O16: each check of R80 is the first that the command makes. -/
theorem operandOutOfRangeIsRefused : Obligations.OperandOutOfRangeIsRefused := by
  intro i s hwf
  have hgrade : ∀ g : GradeCode, gradeOk g = false → g = 0 := by decide
  cases i with
  | rdcr sel =>
    exact exec_rdcr_of_reserved (by simpa [Instr.wf, crSelectorReserved] using hwf) s
  | pushn n v => exact exec_pushn_of_count_gt (by simpa [Instr.wf, countOk] using hwf) v s
  | repl n pos v => exact exec_repl_of_outside (.inl (by simpa [Instr.wf, countOk] using hwf)) v
  | sswr sel v => exact exec_sswr_of_reserved (saveRegOf_eq_none.2 (by simpa [Instr.wf] using hwf)) v s
  | ssrd sel => exact exec_ssrd_of_reserved (saveRegOf_eq_none.2 (by simpa [Instr.wf] using hwf)) s
  | pack g => rw [hgrade g hwf]; exact exec_pack_zero s
  | unpack g => rw [hgrade g hwf]; exact exec_unpack_zero s
  | encode g => rw [hgrade g hwf]; exact exec_encode_zero s
  | convert g => rw [hgrade g hwf]; exact exec_convert_zero s
  | pwwr x b => exact exec_pwwr_of_ge (by simpa [Instr.wf, indexOk] using hwf) b s
  | pwrd x => exact exec_pwrd_of_ge (by simpa [Instr.wf, indexOk] using hwf) s
  | pwlen n => exact exec_pwlen_of_gt (by simpa [Instr.wf, lengthOk] using hwf) s
  | _ => exact absurd hwf Bool.noConfusion

/-- Settles O26: the selectors of the map one by one, and those above it by the list of the reserved ones. -/
theorem selectorsNameTheRegisters : Obligations.SelectorsNameTheRegisters := by
  refine ⟨by decide, by decide, by decide, by decide, by decide, by decide, by decide, by decide, by decide, fun a ha => ?_⟩
  refine saveRegOf_eq_none.2 ?_
  simp [ssSelectorReserved, ha]

end Sys2Proof.Machine
end

section
/-! The item table that `UNPACK` builds (R138, R139): at Gold slot by slot, below Gold as the procedure of R139 that runs
through the bits of the watch-list. -/

set_option autoImplicit false

namespace Sys2Proof.Machine

/-! ### Gold (R138) -/

section
variable (cfg : Params) (ba : List Bool)

theorem getElem_unpackItems (c : Fin 4) (k : Fin 15) :
    (unpackItems cfg ba)[c][k] = ⟨unpackId ba c.val k.val, unpackQuantity cfg ba c.val k.val⟩ := by
  simp [unpackItems]

variable {cfg ba} {c s : Nat}

/-- The quantity field of the id, for the lowest slot that holds a stackable id. -/
theorem unpackQuantity_of_lowest (hid : unpackId ba c s ∈ cfg.stack.toList)
    (hlow : ∀ s' < s, unpackId ba c s' ≠ unpackId ba c s) :
    unpackQuantity cfg ba c s = memReadReg ba (quantityPos c (cfg.stack.toList.idxOf (unpackId ba c s))) 5 := by
  have hlt : cfg.stack.toList.idxOf (unpackId ba c s) < 23 := by simpa using List.idxOf_lt_length_iff.2 hid
  exact if_pos ⟨hlt, hlow⟩

/-- No quantity for any other slot. -/
theorem unpackQuantity_eq_zero
    (h : unpackId ba c s ∉ cfg.stack.toList ∨ ∃ s' < s, unpackId ba c s' = unpackId ba c s) :
    unpackQuantity cfg ba c s = 0 := by
  refine if_neg fun ⟨hlt, hlow⟩ => ?_
  obtain hid | ⟨s', hs', heq⟩ := h
  · exact hid (List.idxOf_lt_length_iff.1 (by simpa using hlt))
  · exact hlow s' hs' heq

end

/-- The stackable ids by their index. -/
theorem mem_stack_iff {cfg : Params} {id : ItemId} : id ∈ cfg.stack.toList ↔ ∃ j : Fin 23, id = cfg.stack[j] := by
  rw [Vector.mem_toList_iff, Vector.mem_iff_getElem]
  exact ⟨fun ⟨j, hj, h⟩ => ⟨⟨j, hj⟩, h.symm⟩, fun ⟨j, h⟩ => ⟨j.val, j.isLt, h.symm⟩⟩

theorem idxOf_stack {cfg : Params} (hnodup : cfg.stack.toList.Nodup) (j : Fin 23) :
    cfg.stack.toList.idxOf cfg.stack[j] = j.val := by
  simpa using hnodup.idxOf_getElem j.val (by simp)

/-! ### Bronze and Silver (R139) -/

/-- The lowest empty slot takes the item; without one it is dropped. -/
def putItem (slots : Vector Item 15) (id : ItemId) : Vector Item 15 :=
  match firstSlot slots 0 with
  | some s => slots.set s ⟨id, 0⟩
  | none => slots

/-- Placing an id that no slot holds is putting it into the row of its character (D26). -/
theorem placeItem_of_not_held {table : ItemTable} {id : ItemId} (h : ¬ holdsId table id = true) (c : Fin 4) :
    placeItem c table id = table.set c (putItem table[c] id) := by
  rw [placeItem, if_neg h, putItem]
  cases firstSlot table[c] 0 with
  | some s => rfl
  | none => simp

/-- The watched ids of the bitmap, by the index of their bit. -/
theorem bitmapIds_eq_map (cfg : Params) (ba : List Bool) :
    bitmapIds cfg ba = ((List.finRange 8).filter fun k => decide (memRead ba (64 + k.val) 1 = 1)).map (cfg.watch[·]) := by
  have hindexed : cfg.watch.toList.zipIdx = (List.finRange 8).map fun k => (cfg.watch[k], k.val) :=
    List.ext_getElem (by simp) fun i _ _ => by simp
  have hbit : ∀ k : Fin 8, bitAt ba (bitmapBase + k.val) = decide (memRead ba (64 + k.val) 1 = 1) := fun k => by
    rw [memRead_one, bitmapBase]
    cases bitAt ba (64 + k.val) <;> rfl
  rw [bitmapIds, hindexed, List.filter_map, List.map_map]
  simp only [Function.comp_def, hbit]

/-- What is done for each id of the bitmap in turn is done for each index whose bit is 1. -/
theorem foldl_bitmapIds {β : Type} (cfg : Params) (ba : List Bool) (f : β → ItemId → β) (b : β) :
    (bitmapIds cfg ba).foldl f b =
      (List.finRange 8).foldl (fun b k => if memRead ba (64 + k.val) 1 = 1 then f b cfg.watch[k] else b) b := by
  rw [bitmapIds_eq_map, List.foldl_map, List.foldl_filter]
  simp only [decide_eq_true_eq]

theorem bitmapIds_sublist (cfg : Params) (ba : List Bool) : (bitmapIds cfg ba).Sublist cfg.watch.toList := by
  simpa [bitmapIds] using (List.filter_sublist (p := fun wk => bitAt ba (bitmapBase + wk.2)) (l := cfg.watch.toList.zipIdx)).map Prod.fst

/-- The other characters keep their rows. -/
theorem getElem_applyBitmap_of_ne (cfg : Params) {c : Fin 4} (hc : c ≠ cfg.watchChar) (table : ItemTable)
    (ids : List ItemId) : (applyBitmap cfg table ids)[c] = table[c] := by
  induction ids generalizing table with
  | nil => rfl
  | cons id ids ih =>
    rw [applyBitmap, List.foldl_cons, ← applyBitmap, ih, placeItem_other _ _ _ _ hc]

/-- An id put into a row is held afterwards, and no further id but 0. -/
theorem not_holdsId_set_putItem {table : ItemTable} {c : Fin 4} {id id' : ItemId} (hne : id' ≠ id) (hzero : id' ≠ 0)
    (h : ¬ holdsId table id' = true) : ¬ holdsId (table.set c (putItem table[c] id)) id' = true := by
  unfold putItem
  cases hslot : firstSlot table[c] 0 with
  | none => simpa using h
  | some s => exact (holdsId_set (firstSlot_eq_some hslot) ⟨id, 0⟩ hzero).not.2 (not_or.2 ⟨h, hne⟩)

/-- R139 as it is printed: when the ids are distinct and no slot holds any of them, each is put in. -/
theorem getElem_applyBitmap_watchChar (cfg : Params) {table : ItemTable} {ids : List ItemId} (hnodup : ids.Nodup)
    (hzero : (0 : ItemId) ∉ ids) (hnone : ∀ id ∈ ids, ¬ holdsId table id = true) :
    (applyBitmap cfg table ids)[cfg.watchChar] = ids.foldl putItem table[cfg.watchChar] := by
  induction ids generalizing table with
  | nil => rfl
  | cons id ids ih =>
    obtain ⟨hid, hnodup⟩ := List.nodup_cons.1 hnodup
    obtain ⟨hfirst, hnone⟩ := List.forall_mem_cons.1 hnone
    have hrest : ∀ id' ∈ ids, ¬ holdsId (table.set cfg.watchChar (putItem table[cfg.watchChar] id)) id' = true :=
      fun id' hid' => not_holdsId_set_putItem (fun heq => hid (heq ▸ hid'))
        (fun heq => hzero (List.mem_cons_of_mem _ (heq ▸ hid'))) (hnone id' hid')
    rw [applyBitmap, List.foldl_cons, ← applyBitmap, placeItem_of_not_held hfirst,
      ih hnodup (fun h => hzero (List.mem_cons_of_mem _ h)) hrest, List.foldl_cons]
    simp

end Sys2Proof.Machine
end

section
/-! The statements about the item table. -/

set_option autoImplicit false

namespace Sys2Proof.Machine

/-- Settles O34: the two cases of the quantity; distinct `STACK` ids make the index of the field the given one. -/
theorem unpackGoldItemTable : Obligations.UnpackGoldItemTable := by
  rintro s ⟨-, -, hnodup, -⟩
  refine ⟨unpack s.cfg .gold s.ba, exec_unpack_code s .gold, fun c k => ?_⟩
  have hitem : ∀ k : Fin 15, (unpack s.cfg .gold s.ba).item[c][k] =
      ⟨unpackId s.ba c.val k.val, unpackQuantity s.cfg s.ba c.val k.val⟩ := getElem_unpackItems s.cfg s.ba c
  simp only [hitem]
  refine ⟨toNat_memReadReg .., fun j hid hlow => ?_, fun hother => unpackQuantity_eq_zero ?_⟩
  · rw [unpackQuantity_of_lowest (mem_stack_iff.2 ⟨j, hid⟩) fun k' hk' => hlow ⟨k', hk'.trans k.isLt⟩ hk', hid,
      idxOf_stack hnodup, toNat_memReadReg]
    rfl
  · refine hother.imp (fun hne hmem => ?_) fun ⟨k', hk', heq⟩ => ⟨k'.val, hk', heq⟩
    obtain ⟨j, hj⟩ := mem_stack_iff.1 hmem
    exact hne j hj

/-- Settles O35: the fold over the ids of the bitmap, as a fold over the bits. -/
theorem unpackPlaceholderItemTable : Obligations.UnpackPlaceholderItemTable := by
  intro s g hg wc defaults
  have htable : (unpack s.cfg g s.ba).item = applyBitmap s.cfg defaults (bitmapIds s.cfg s.ba) := by
    cases g with
    | bronze => rfl
    | silver => rfl
    | gold => exact absurd rfl hg
  refine ⟨unpack s.cfg g s.ba, exec_unpack_code s g, fun c hc => ?_, ?_, fun hvalid hnone => ?_⟩
  · rw [htable, getElem_applyBitmap_of_ne s.cfg hc]
  · rw [htable, applyBitmap, foldl_bitmapIds]
    congr 1
    funext table k
    have hnot : (∀ c : Fin 4, ∀ i : Fin 15, table[c][i].id ≠ s.cfg.watch[k]) ↔ ¬ holdsId table s.cfg.watch[k] = true := by
      simp only [holdsId_iff, not_exists, ne_eq]
    rw [ite_and]
    refine if_congr Iff.rfl ?_ rfl
    rw [placeItem, ← ite_not]
    exact if_congr hnot.symm rfl rfl
  · obtain ⟨hnodup, hzero, -, -⟩ := hvalid
    have hsub := bitmapIds_sublist s.cfg s.ba
    rw [htable, getElem_applyBitmap_watchChar s.cfg (hnodup.sublist hsub) (fun h => hzero (hsub.subset h)), foldl_bitmapIds]
    · rfl
    · intro id hid hheld
      obtain ⟨c, i, hslot⟩ := (holdsId_iff ..).1 hheld
      obtain ⟨k, hk, rfl⟩ := Vector.mem_iff_getElem.1 (Vector.mem_toList_iff.1 (hsub.subset hid))
      exact hnone c i ⟨k, hk⟩ hslot

end Sys2Proof.Machine
end

section
/-! The framed stream decrypted (R154), and the password buffer after groups were written and read again (R176 to R180):
as whole streams and whole states, where the lemmas above say it cell by cell. -/

set_option autoImplicit false

namespace Sys2Proof.Machine

/-! ### Streams of whole bytes -/

/-- A stream of whole bytes is fixed by its bytes (R52). -/
theorem stream_ext_of_bytes {l l' : List Bool} {n : Nat} (hl : l.length = 8 * n) (hl' : l'.length = 8 * n)
    (h : ∀ i < n, byteAt l i = byteAt l' i) : l = l' := by
  refine stream_ext (hl.trans hl'.symm) fun p hp => ?_
  have hcell := congrArg (BitVec.getLsbD · (7 - p % 8)) (h (p / 8) (by omega))
  simp only [getLsbD_byteAt _ _ (show 7 - p % 8 < 8 by omega)] at hcell
  rwa [show 8 * (p / 8) + (7 - (7 - p % 8)) = p by omega] at hcell

/-- Bytes with the same cells are equal. -/
theorem byteAt_congr {l l' : List Bool} {i : Nat} (h : ∀ p, 8 * i ≤ p → bitAt l p = bitAt l' p) : byteAt l i = byteAt l' i :=
  BitVec.eq_of_getLsbD_eq fun k hk => by rw [getLsbD_byteAt _ _ hk, getLsbD_byteAt _ _ hk, h _ (by omega)]

/-! ### `Decrypt` of a framed stream (R154) -/

theorem keyHi_append_keyLo (k : BitVec 16) : keyHi k ++ keyLo k = k := by
  refine BitVec.eq_of_getLsbD_eq fun i hi => ?_
  rw [BitVec.getLsbD_append]
  by_cases hlow : i < 8
  · simp [keyLo, hlow]
  · simp [keyHi, hlow, show i - 8 < 8 by omega, show 8 + (i - 8) = i by omega]

section
variable {ba : List Bool} (k : BitVec 16) (halign : ba.length % 8 = 0)
include halign

theorem wholeBytes_encrypt : wholeBytes (encrypt ba k) = wholeBytes ba + 2 := by
  simp only [wholeBytes, length_encrypt]
  omega

theorem lastByte_encrypt : lastByte (encrypt ba k) = keyLo k := by
  rw [lastByte, wholeBytes_encrypt k halign]
  exact byteAt_encrypt_keyLo k halign

/-- The first appended byte comes back as keyHi. -/
theorem byteAt_decrypt_encrypt_keyHi : byteAt (decrypt (encrypt ba k)) (wholeBytes ba) = keyHi k := by
  rw [byteAt_decrypt (by rw [wholeBytes_encrypt k halign]; omega), byteAt_encrypt_keyHi k halign, lastByte_encrypt k halign,
    BitVec.xor_assoc, BitVec.xor_self, BitVec.xor_zero]

/-- R154: `Decrypt(Encrypt(s, k)) = s ++ keyHi ++ keyLo`, byte by byte. -/
theorem decrypt_encrypt : decrypt (encrypt ba k) = ba ++ bitsOfReg (keyHi k) ++ bitsOfReg (keyLo k) := by
  have hlen := length_of_aligned halign
  have hwhole := wholeBytes_encrypt k halign
  refine stream_ext_of_bytes (n := wholeBytes ba + 2) (by simp; omega) (by simp; omega) fun i hi => ?_
  rcases Nat.lt_trichotomy i (wholeBytes ba) with hlt | rfl | hgt
  · rw [byteAt_decrypt (by omega), byteAt_encrypt k hlt, lastByte_encrypt k halign, BitVec.xor_assoc, BitVec.xor_self,
      BitVec.xor_zero, List.append_assoc, byteAt_append_left _ (by omega)]
  · rw [byteAt_decrypt_encrypt_keyHi k halign]
    exact (SegmentAt.byteAt_eq ((segmentAt_append_right hlen _).append _)).symm
  · obtain rfl : i = wholeBytes ba + 1 := by omega
    rw [byteAt_congr fun p hp => bitAt_decrypt_of_le (by omega), byteAt_encrypt_keyLo k halign]
    exact (SegmentAt.byteAt_eq (segmentAt_append_right (by simp; omega) _)).symm

/-- R154: `key' = k`. -/
theorem recoveredKey_encrypt : recoveredKey (encrypt ba k) = k := by
  rw [recoveredKey, wholeBytes_encrypt k halign, Nat.add_sub_cancel, byteAt_decrypt_encrypt_keyHi k halign,
    lastByte_encrypt k halign, keyHi_append_keyLo]

end

/-! ### Groups written and read again -/

theorem scramble_unscramble (gs : List Group) : scramble (unscramble gs) = gs := by
  refine List.ext_getElem (by simp) fun i _ _ => ?_
  rw [getElem_scramble, getElem_unscramble, sub_add_cancel]

/-- Of two runs of groups of one length the second alone counts. -/
theorem writeGroups_writeGroups {m : Memory} (hm : m.wf = true) {gs gs' : List Group} (hlen : gs'.length = gs.length)
    (h : gs.length ≤ 260) : (m.writeGroups gs).writeGroups gs' = m.writeGroups gs' := by
  have hm' := Memory.wf_writeGroups hm gs h
  have h' : gs'.length ≤ 260 := hlen ▸ h
  refine Memory.ext_read (Memory.wf_writeGroups hm' gs' h') (Memory.wf_writeGroups hm gs' h') fun i => ?_
  rw [Memory.read_writeGroups hm' gs' h', Memory.read_writeGroups hm gs' h']
  split
  · rfl
  · rw [Memory.read_writeGroups hm gs h, dif_neg (by omega)]

section
variable {s : State} (hwf : s.pw.wf = true) (hn : s.pwlen.toNat ≤ 260)
include hwf hn

/-- The declared symbols, written where they were read. -/
theorem writeGroups_groups (hdom : s.InDomain) : s.pw.writeGroups s.groups = s.pw := by
  have hlen : s.groups.length ≤ 260 := by rwa [State.length_groups]
  refine Memory.ext_read (Memory.wf_writeGroups hwf _ hlen) hwf fun i => ?_
  rw [Memory.read_writeGroups hwf _ hlen]
  split
  · rename_i hi
    refine BitVec.eq_of_toNat_eq ?_
    rw [toNat_byteOfGroup, State.getElem_groups, toNat_groupOfByte (hdom i (by rwa [State.length_groups] at hi))]
  · rfl

variable {gs : List Group} (hlen : gs.length = s.pwlen.toNat)
include hlen

/-- Groups written over the declared symbols are the declared symbols. -/
theorem groups_setPw_writeGroups : (s.setPw (s.pw.writeGroups gs)).groups = gs := by
  refine List.ext_getElem (by rw [State.length_groups, hlen]; rfl) fun i _ hi => ?_
  rw [State.getElem_groups, State.setPw_pw, Memory.read_writeGroups hwf _ (hlen ▸ hn), dif_pos hi,
    groupOfByte_byteOfGroup]

theorem inDomain_setPw_writeGroups : (s.setPw (s.pw.writeGroups gs)).InDomain := by
  intro i hi
  have hi' : i < gs.length := hlen ▸ hi
  rw [State.setPw_pw, Memory.read_writeGroups hwf _ (hlen ▸ hn), dif_pos hi', toNat_byteOfGroup]
  exact Nat.le_of_lt_succ (BitVec.isLt _)

end

/-! ### `SCRAM` and `UNSCR` one after the other (R176, R180) -/

section
variable {s : State} (hwf : s.pw.wf = true) (hn : s.pwlen.toNat ≤ 260)
include hwf hn

theorem groups_scrambled : s.scrambled.groups = scramble s.groups := groups_setPw_writeGroups hwf hn (by simp)

theorem groups_unscrambled : s.unscrambled.groups = unscramble s.groups := groups_setPw_writeGroups hwf hn (by simp)

theorem inDomain_scrambled : s.scrambled.InDomain := inDomain_setPw_writeGroups hwf hn (by simp)

theorem inDomain_unscrambled : s.unscrambled.InDomain := inDomain_setPw_writeGroups hwf hn (by simp)

variable (hdom : s.InDomain)
include hdom

theorem unscrambled_scrambled : s.scrambled.unscrambled = s := by
  have hpw : s.scrambled.pw.writeGroups (unscramble s.scrambled.groups) = s.pw := by
    rw [groups_scrambled hwf hn, unscramble_scramble, State.scrambled, State.setPw_pw,
      writeGroups_writeGroups hwf (by simp) (by simpa using hn), writeGroups_groups hwf hn hdom]
  exact congrArg s.setPw hpw

theorem scrambled_unscrambled : s.unscrambled.scrambled = s := by
  have hpw : s.unscrambled.pw.writeGroups (scramble s.unscrambled.groups) = s.pw := by
    rw [groups_unscrambled hwf hn, scramble_unscramble, State.unscrambled, State.setPw_pw,
      writeGroups_writeGroups hwf (by simp) (by simpa using hn), writeGroups_groups hwf hn hdom]
  exact congrArg s.setPw hpw

end

/-! ### Sequences of commands -/

theorem runCommands_singleton (i : Instr) (s : State) : runCommands [i] s = exec i s := by
  rw [runCommands]
  cases exec i s <;> rfl

/-- The response of a command that others follow is not read (R23). -/
theorem runCommands_cons_of_ok {i j : Instr} {is : List Instr} {s t : State} {d : Data} (h : exec i s = .next (t.ok d)) :
    runCommands (i :: j :: is) s = runCommands (j :: is) t := by
  have hread : exec j (t.ok d) = exec j t := earlierResponseIsNeverRead j t _
  simp only [runCommands, h, hread]

end Sys2Proof.Machine
end

section
/-! The statements about one command undoing another. -/

set_option autoImplicit false

namespace Sys2Proof.Machine

/-- Settles O41: the framed stream has two whole bytes at least, so `DECR` completes, and R154 says with what. -/
theorem decrUndoesEncr : Obligations.DecrUndoesEncr := by
  intro s halign hfit
  have htwo : 2 ≤ wholeBytes (encrypt s.ba s.key) := by
    rw [wholeBytes_encrypt s.key halign]
    exact Nat.le_add_left ..
  rw [runCommands_cons_of_ok (exec_encr_of_fits halign hfit), runCommands_singleton,
    exec_decr_of_two_le (s := s.encrypted) htwo, State.decrypted, State.encrypted, State.setBa_ba,
    decrypt_encrypt s.key halign, recoveredKey_encrypt s.key halign]
  rfl

/-- Settles O47: each of the two commands leaves symbols in the domain, and undoes the other's effect. -/
theorem scramAndUnscrUndoEachOther : Obligations.ScramAndUnscrUndoEachOther := by
  intro s hwf hn hdom
  constructor
  · rw [runCommands_cons_of_ok (exec_scram_of_inDomain hn hdom), runCommands_singleton,
      exec_unscr_of_inDomain (s := s.scrambled) hn (inDomain_scrambled hwf hn), unscrambled_scrambled hwf hn hdom]
    rfl
  · rw [runCommands_cons_of_ok (exec_unscr_of_inDomain hn hdom), runCommands_singleton,
      exec_scram_of_inDomain (s := s.unscrambled) hn (inDomain_unscrambled hwf hn), scrambled_unscrambled hwf hn hdom]
    rfl

end Sys2Proof.Machine
end

section
/-! `ENCODE` and `DECODE` as the sequences of their steps (R192, R194, D32): each step completes, and the states between
them end in the state of the pipeline. -/

set_option autoImplicit false

namespace Sys2Proof.Machine

/-! ### `REGRP`, then `SCRAM` (R177, R179) -/

section
variable {s : State} (hfit : (regroup s.ba).length ≤ 260)
include hfit

theorem toNat_pwlen_regrouped : s.regrouped.pwlen.toNat = (regroup s.ba).length :=
  Nat.mod_eq_of_lt (Nat.lt_of_le_of_lt hfit (by decide))

variable (hwf : s.pw.wf = true)
include hwf

theorem groups_regrouped : s.regrouped.groups = regroup s.ba :=
  groups_setPw_writeGroups (s := s.setPwlen s.regrouped.pwlen) hwf ((toNat_pwlen_regrouped hfit).trans_le hfit)
    (toNat_pwlen_regrouped hfit).symm

theorem inDomain_regrouped : s.regrouped.InDomain :=
  inDomain_setPw_writeGroups (s := s.setPwlen s.regrouped.pwlen) hwf ((toNat_pwlen_regrouped hfit).trans_le hfit)
    (toNat_pwlen_regrouped hfit).symm

/-- The scrambled groups stand where the regrouped ones stood. -/
theorem scrambled_regrouped :
    s.regrouped.scrambled = s.regrouped.setPw (s.pw.writeGroups (scramble (regroup s.ba))) := by
  have hpw : s.regrouped.pw.writeGroups (scramble s.regrouped.groups) = s.pw.writeGroups (scramble (regroup s.ba)) := by
    rw [groups_regrouped hfit hwf]
    exact writeGroups_writeGroups hwf (length_scramble _) hfit
  exact congrArg s.regrouped.setPw hpw

end

/-! ### The steps of `ENCODE` -/

/-- The payload's declared size fits the operand of `KEYGEN`. -/
theorem toNat_payloadBytes (g : Grade) : (BitVec.ofNat 11 g.payloadBytes).toNat = g.payloadBytes := by
  cases g <;> rfl

/-- R199: the regrouped stream of a framed payload has the declared length. -/
theorem length_regroup_frame (cfg : Params) (ss : SaveState) (g : Grade) :
    (regroup (frame (pack cfg ss g) g)).length = g.passwordLength :=
  (length_scramble _).symm.trans (length_encodePassword cfg ss g)

/-- The state after `PACK`, `KEYGEN` and `ENCR`: the framed stream stands in the accumulator. -/
def State.framed (s : State) (g : Grade) : State := ((s.packed g).keyed g.payloadBytes).encrypted

@[simp] theorem State.framed_ba (s : State) (g : Grade) : (s.framed g).ba = frame (pack s.cfg s.ss g) g := rfl

@[simp] theorem State.framed_pw (s : State) (g : Grade) : (s.framed g).pw = s.pw := rfl

section
variable (s : State) (g : Grade)

theorem exec_keygen_packed : exec (.keygen (BitVec.ofNat 11 g.payloadBytes)) (s.packed g) =
    .next (((s.packed g).keyed g.payloadBytes).ok (((s.packed g).keyed g.payloadBytes).key.setWidth 32)) := by
  have hlen : (s.packed g).ba.length = 8 * g.payloadBytes := length_pack s.cfg s.ss g
  have hinside := exec_keygen_of_inside (m := BitVec.ofNat 11 g.payloadBytes) (s := s.packed g)
    (by rw [toNat_payloadBytes, hlen])
  rwa [toNat_payloadBytes] at hinside

/-- Every payload is whole bytes, and fits the bit memory with its key. -/
theorem exec_encr_packed : exec .encr ((s.packed g).keyed g.payloadBytes) =
    .next ((s.framed g).ok (BitVec.ofNat 32 ((pack s.cfg s.ss g).length + 16))) := by
  have hlen : (pack s.cfg s.ss g).length = 8 * g.payloadBytes := length_pack s.cfg s.ss g
  refine exec_encr_of_fits (s := (s.packed g).keyed g.payloadBytes) (hlen ▸ Nat.mul_mod_right ..) ?_
  show (pack s.cfg s.ss g).length + 16 ≤ 2048
  rw [hlen]
  cases g <;> decide

theorem length_regroup_framed_le : (regroup (s.framed g).ba).length ≤ 260 :=
  (length_regroup_frame s.cfg s.ss g).trans_le (passwordLength_le g)

variable {s} (hwf : s.pw.wf = true)
include hwf

/-- What the steps leave is what `ENCODE` leaves, but for the grade. -/
theorem scrambled_regrouped_framed : (s.framed g).regrouped.scrambled = (s.encoded g).setGrade s.grade := by
  rw [scrambled_regrouped (length_regroup_framed_le s g) hwf, State.regrouped, State.framed_ba, length_regroup_frame]
  rfl

/-- R192: the steps complete. -/
theorem runCommands_encode_steps :
    runCommands [.pack g.code, .keygen (BitVec.ofNat 11 g.payloadBytes), .encr, .regrp, .scram] s =
      .next (((s.encoded g).setGrade s.grade).ok (BitVec.ofNat 32 g.passwordLength)) := by
  have hfit := length_regroup_framed_le s g
  have hpwlen : (s.framed g).regrouped.pwlen.toNat = g.passwordLength :=
    (toNat_pwlen_regrouped hfit).trans (length_regroup_frame s.cfg s.ss g)
  have hscram := exec_scram_of_inDomain (hpwlen.trans_le (passwordLength_le g)) (inDomain_regrouped hfit hwf)
  rw [runCommands_cons_of_ok (exec_pack_code s g), runCommands_cons_of_ok (exec_keygen_packed s g),
    runCommands_cons_of_ok (exec_encr_packed s g), runCommands_cons_of_ok (exec_regrp_of_fits hfit),
    runCommands_singleton, hscram, hpwlen, scrambled_regrouped_framed g hwf]

end

/-! ### The steps of `DECODE` -/

section
variable {s : State} {g : Grade} (hwf : s.pw.wf = true) (h : s.HoldsPassword g)
include h

theorem pwlen_le_of_holdsPassword : s.pwlen.toNat ≤ 260 := h.1.trans_le (passwordLength_le g)

/-- The stream of every password has room for the key pair. -/
theorem two_le_wholeBytes_ungroup : 2 ≤ wholeBytes (ungroup (unscramble s.groups)) := by
  rw [wholeBytes, length_ungroup, length_unscramble, State.length_groups, h.1]
  cases g <;> decide

include hwf

/-- The state before the last step: what `DECODE` leaves, but for the grade, with the symbols still unscrambled. -/
theorem unpacked_decrypted_ungrouped_unscrambled :
    s.unscrambled.ungrouped.decrypted.unpacked g = ((s.decoded g).setGrade s.grade).unscrambled := by
  have hgroups := groups_unscrambled hwf (pwlen_le_of_holdsPassword h)
  simp only [State.ungrouped, hgroups, State.decrypted, State.unpacked, State.setBa_ba, State.setBa_cfg, State.setKey_ba,
    State.setKey_cfg]
  rfl

/-- R194: the steps complete, and the last puts the symbols back as they were. -/
theorem runCommands_decode_steps :
    runCommands [.unscr, .ungrp, .decr, .unpack g.code, .scram] s =
      .next (((s.decoded g).setGrade s.grade).ok (BitVec.ofNat 32 s.pwlen.toNat)) := by
  have hn := pwlen_le_of_holdsPassword h
  have hdom := inDomain_unscrambled hwf hn
  have htwo : 2 ≤ wholeBytes (ungroup s.unscrambled.groups) := by
    rw [groups_unscrambled hwf hn]
    exact two_le_wholeBytes_ungroup h
  have hungrp : exec .ungrp s.unscrambled =
      .next (s.unscrambled.ungrouped.ok (BitVec.ofNat 32 (ungroup s.unscrambled.groups).length)) :=
    exec_ungrp_of_inDomain hn hdom
  have hscram := exec_scram_of_inDomain (s := ((s.decoded g).setGrade s.grade).unscrambled) hn hdom
  rw [runCommands_cons_of_ok (exec_unscr_of_inDomain hn h.2), runCommands_cons_of_ok hungrp,
    runCommands_cons_of_ok (exec_decr_of_two_le (s := s.unscrambled.ungrouped) htwo),
    runCommands_cons_of_ok (exec_unpack_code s.unscrambled.ungrouped.decrypted g), runCommands_singleton,
    unpacked_decrypted_ungrouped_unscrambled hwf h, hscram, scrambled_unscrambled (s := (s.decoded g).setGrade s.grade) hwf hn h.2]
  rfl

end

end Sys2Proof.Machine
end

section
/-! Decoding what was encoded (R201): every field of the SaveState that `Unpack` reads from a packed payload is the one of
the projection (R145). -/

set_option autoImplicit false

namespace Sys2Proof.Machine

theorem SaveState.ext_fields {ss ss' : SaveState} (hlevel : ss.level = ss'.level) (hcomp : ss.comp = ss'.comp)
    (hevent : ss.event = ss'.event) (hcoins : ss.coins = ss'.coins) (hstat : ss.stat = ss'.stat)
    (hitem : ss.item = ss'.item) : ss = ss' := by
  cases ss
  cases ss'
  simp_all

section
variable {cfg : Params} {ss : SaveState} {ba : List Bool}

/-- R137: six packed stats are read back. -/
theorem unpackStats_of_segmentAt {g : Grade} {c : Nat} {t : Stats}
    (h : SegmentAt ba (statBase g + 60 * c) (packStats t)) : unpackStats g ba c = t := by
  obtain ⟨hhp, hrp, hattack, hdefense, hagility, hluck⟩ := h.memRead_packStats
  simp [unpackStats, statOffset, memReadReg, hhp, hrp, hattack, hdefense, hagility, hluck]

theorem unpack_stat_of_pack {g : Grade} (h : SegmentAt ba 0 (pack cfg ss g)) (hg : g ≠ .bronze) :
    (unpack cfg g ba).stat = ss.stat := by
  refine Vector.ext fun c hc => (getElem_unpackAllStats hg cfg ba ⟨c, hc⟩).trans (unpackStats_of_segmentAt ?_)
  rw [statBase_eq]
  exact h.of_pack (segmentAt_pack_stats cfg ss hg ⟨c, hc⟩)

theorem unpack_coins_gold_of_pack (h : SegmentAt ba 0 (pack cfg ss .gold)) : (unpack cfg .gold ba).coins = ss.coins :=
  BitVec.eq_of_toNat_eq ((toNat_memReadReg ..).trans (h.of_pack (segmentAt_pack_coins cfg ss)).memRead_reg)

/-- R129: the identifier of every slot comes back. -/
theorem unpackId_of_pack (h : SegmentAt ba 0 (pack cfg ss .gold)) (c : Fin 4) (k : Fin 15) :
    unpackId ba c.val k.val = ss.item[c][k].id := by
  have hid := h.of_pack ((segmentAt_pack_items cfg ss).trans (segmentAt_packItems_id ss c k))
  rw [← Nat.add_assoc] at hid
  exact BitVec.eq_of_toNat_eq ((toNat_memReadReg ..).trans hid.memRead_reg)

/-- R131: the quantity field of a stackable id is that of its lowest slot. -/
theorem memReadReg_quantityPos_of_pack (h : SegmentAt ba 0 (pack cfg ss .gold)) (c : Fin 4) {id : ItemId}
    (hmem : id ∈ cfg.stack.toList) :
    memReadReg ba (quantityPos c.val (cfg.stack.toList.idxOf id)) 5 = quantityOf ss.item[c] id := by
  have hlt : cfg.stack.toList.idxOf id < 23 := by simpa using List.idxOf_lt_length_iff.2 hmem
  have hstack : cfg.stack[cfg.stack.toList.idxOf id] = id :=
    (Vector.getElem_toList _).symm.trans (List.getElem_idxOf (List.idxOf_lt_length_iff.2 hmem))
  have hfield := h.of_pack ((segmentAt_pack_quantities cfg ss).trans (segmentAt_packQuantities cfg ss c ⟨_, hlt⟩))
  have hread := BitVec.eq_of_toNat_eq ((toNat_memReadReg ..).trans hfield.memRead_reg)
  exact hread.trans (congrArg (quantityOf ss.item[c]) hstack)

/-- R145: the quantity comes back where the projection keeps it. -/
theorem unpackItem_of_pack (h : SegmentAt ba 0 (pack cfg ss .gold)) (c : Fin 4) (k : Fin 15) :
    (unpackItems cfg ba)[c][k] = reconstructItem cfg ss.item[c] k := by
  have hid := unpackId_of_pack h c
  rw [getElem_unpackItems, hid, reconstructItem]
  split
  · next hkept =>
    obtain ⟨hmem, hlow⟩ := hkept
    have hlowest : ∀ k' < k.val, unpackId ba c.val k' ≠ unpackId ba c.val k.val := fun k' hk' heq =>
      hlow ⟨k', hk'.trans k.isLt⟩ hk' ((hid _).symm.trans (heq.trans (hid k)))
    rw [unpackQuantity_of_lowest (by rwa [hid]) hlowest, hid, memReadReg_quantityPos_of_pack h c hmem,
      quantityOf_of_lowest rfl hlow]
  · next hdropped =>
    rw [unpackQuantity_eq_zero]
    simp only [hid]
    refine (not_and_or.1 hdropped).imp_right fun hother => ?_
    push Not at hother
    obtain ⟨k', hk', heq⟩ := hother
    exact ⟨k'.val, hk', (hid k').trans heq⟩

end

/-- The item table of the projection at Gold, slot by slot (R145). -/
theorem getElem_reconstruct_gold_item (cfg : Params) (ss : SaveState) (c : Fin 4) (k : Fin 15) :
    (reconstruct cfg ss .gold).item[c][k] = reconstructItem cfg ss.item[c] k := by
  simp [reconstruct]

/-- R201: the projection, field by field. -/
theorem unpack_of_pack {cfg : Params} {ss : SaveState} {g : Grade} {ba : List Bool} (h : SegmentAt ba 0 (pack cfg ss g)) :
    unpack cfg g ba = reconstruct cfg ss g := by
  have hlevel := unpack_level_of_pack h
  have hcomp := unpack_comp_of_pack h
  have hevent := unpack_event_of_pack h
  cases g with
  | bronze =>
    have hitem : (unpack cfg .bronze ba).item = applyBitmap cfg cfg.defItemsBronze (heldWatchIds cfg ss) :=
      congrArg (applyBitmap cfg cfg.defItemsBronze) (bitmapIds_of_pack h (by decide))
    exact SaveState.ext_fields hlevel hcomp hevent rfl rfl hitem
  | silver =>
    have hstat := unpack_stat_of_pack h (by decide)
    have hitem : (unpack cfg .silver ba).item = applyBitmap cfg cfg.defItemsSilver (heldWatchIds cfg ss) :=
      congrArg (applyBitmap cfg cfg.defItemsSilver) (bitmapIds_of_pack h (by decide))
    exact SaveState.ext_fields hlevel hcomp hevent rfl hstat hitem
  | gold =>
    have hstat := unpack_stat_of_pack h (by decide)
    have hcoins := unpack_coins_gold_of_pack h
    have hitem : (unpack cfg .gold ba).item = (reconstruct cfg ss .gold).item :=
      Vector.ext fun c hc => Vector.ext fun k hk =>
        (unpackItem_of_pack h ⟨c, hc⟩ ⟨k, hk⟩).trans (getElem_reconstruct_gold_item cfg ss ⟨c, hc⟩ ⟨k, hk⟩).symm
    exact SaveState.ext_fields hlevel hcomp hevent hcoins hstat hitem

end Sys2Proof.Machine
end

section
/-! What the pipelines read (R204): from states that agree on it, `ENCODE`, `DECODE` and `CONVERT` answer alike. -/

set_option autoImplicit false

namespace Sys2Proof.Machine

/-! ### The checks and the symbols -/

section
variable {s s' : State} (hpwlen : s.pwlen = s'.pwlen) (hread : ∀ i < s.pwlen.toNat, s.pw.read i = s'.pw.read i)
include hpwlen hread

theorem entries_congr : s.pw.entries s.symbolCount = s'.pw.entries s'.symbolCount := by
  rw [State.symbolCount, State.symbolCount, ← hpwlen]
  exact List.map_congr_left fun i hi => hread i (List.mem_range.1 hi)

theorem groups_congr : s.groups = s'.groups := congrArg (List.map groupOfByte) (entries_congr hpwlen hread)

theorem passwordGrade_congr : s.passwordGrade = s'.passwordGrade := by
  rw [State.passwordGrade, State.passwordGrade, State.symbolsOk, State.symbolsOk, entries_congr hpwlen hread,
    State.symbolCount, State.symbolCount, hpwlen]

end

/-! ### Two runs of one command -/

/-- Both runs complete with the same response, and with `OK` in states that are related by `same`. -/
def AnswerAlike (same : State → State → Prop) (out out' : Result) : Prop :=
  ∃ t t', out = .next t ∧ out' = .next t' ∧ t.rsp = t'.rsp ∧ ((∃ d, t.rsp = some ⟨.ok, d⟩) → same t t')

namespace AnswerAlike

variable {same : State → State → Prop} {s s' t t' : State} {out out' : Result} {e : Status} {d : Data}

theorem of_ok (h : out = .next (t.ok d)) (h' : out' = .next (t'.ok d)) (hsame : same (t.ok d) (t'.ok d)) :
    AnswerAlike same out out' :=
  ⟨_, _, h, h', rfl, fun _ => hsame⟩

theorem of_failed (he : e ≠ .ok) (h : out = .next (s.failed e)) (h' : out' = .next (s'.failed e)) :
    AnswerAlike same out out' :=
  ⟨_, _, h, h', rfl, fun ⟨_, hok⟩ => absurd (congrArg Response.status (Option.some.inj hok)) he⟩

end AnswerAlike

/-- A command that makes the input checks of R195: a failed check is the same one in both runs. -/
theorem answerAlike_of_passwordGrade {same : State → State → Prop} {s s' : State} (hgrade : s.passwordGrade = s'.passwordGrade)
    {i : Instr} (hi : i = .pwchk ∨ i = .decode ∨ ∃ t : GradeCode, t ≠ 0 ∧ i = .convert t)
    (hpassed : ∀ g, s.HoldsPassword g → s'.HoldsPassword g → AnswerAlike same (exec i s) (exec i s')) :
    AnswerAlike same (exec i s) (exec i s') := by
  cases h : s.passwordGrade with
  | ok g => exact hpassed g (State.passwordGrade_eq_ok.1 h) (State.passwordGrade_eq_ok.1 (hgrade ▸ h))
  | error e =>
    have he : e ≠ .ok := by
      obtain ⟨rfl, -⟩ | ⟨rfl, -⟩ := State.passwordGrade_eq_error h <;> decide
    exact .of_failed he (exec_of_passwordGrade_error h hi) (exec_of_passwordGrade_error (hgrade ▸ h) hi)

/-! ### The three pipelines -/

/-- What R204 compares after `ENCODE`. -/
def SameEncoded (t t' : State) : Prop :=
  t.pwlen = t'.pwlen ∧ t.grade = t'.grade ∧ t.key = t'.key ∧ t.crc = t'.crc ∧ t.ba = t'.ba ∧
    ∀ i < t.pwlen.toNat, t.pw.read i = t'.pw.read i

/-- What R204 compares after `DECODE`. -/
def SameDecoded (t t' : State) : Prop := t.ss = t'.ss ∧ t.grade = t'.grade ∧ t.key = t'.key ∧ t.ba = t'.ba

/-- What R204 compares after `CONVERT`. -/
def SamePassword (t t' : State) : Prop :=
  t.pwlen = t'.pwlen ∧ t.grade = t'.grade ∧ ∀ i < t.pwlen.toNat, t.pw.read i = t'.pw.read i

section
variable {s s' : State} (hwf : s.pw.wf = true) (hwf' : s'.pw.wf = true) (hcfg : s.cfg = s'.cfg)
include hcfg

theorem sameDecoded_decoded (hgroups : s.groups = s'.groups) (g : Grade) : SameDecoded (s.decoded g) (s'.decoded g) := by
  simp only [SameDecoded, State.decoded_ss, State.decoded_grade, State.decoded_key, State.decoded_ba, hcfg, hgroups, and_self]

include hwf hwf'

theorem sameEncoded_encoded (hss : s.ss = s'.ss) (g : Grade) : SameEncoded (s.encoded g) (s'.encoded g) := by
  have hpassword : encodePassword s.cfg s.ss g = encodePassword s'.cfg s'.ss g := by rw [hcfg, hss]
  refine ⟨rfl, rfl, ?_, ?_, ?_, fun i hi => read_encoded_congr hwf hwf' hpassword (hi.trans_eq (toNat_passwordLength g))⟩
  all_goals simp only [State.encoded_key, State.encoded_crc, State.encoded_ba, hcfg, hss]

theorem answerAlike_convert (hpwlen : s.pwlen = s'.pwlen) (hread : ∀ i < s.pwlen.toNat, s.pw.read i = s'.pw.read i)
    (t : GradeCode) : AnswerAlike SamePassword (exec (.convert t) s) (exec (.convert t) s') := by
  obtain rfl | ⟨target, rfl⟩ := gradeCode_cases t
  · exact .of_failed (by decide) (exec_convert_zero s) (exec_convert_zero s')
  · refine answerAlike_of_passwordGrade (passwordGrade_congr hpwlen hread) (.inr (.inr ⟨_, code_ne_zero target, rfl⟩))
      fun source hholds hholds' => ?_
    rw [exec_convert_of_holdsPassword hholds, exec_convert_of_holdsPassword hholds']
    split_ifs
    · exact .of_failed (by decide) rfl rfl
    · exact .of_ok rfl rfl ⟨hpwlen, rfl, hread⟩
    · obtain ⟨hss, -⟩ := sameDecoded_decoded hcfg (groups_congr hpwlen hread) source
      obtain ⟨hlen, hgrade, -, -, -, hentries⟩ := sameEncoded_encoded (s := s.decoded source) (s' := s'.decoded source)
        hwf hwf' hcfg hss target
      exact .of_ok rfl rfl ⟨hlen, hgrade, hentries⟩

end

end Sys2Proof.Machine
end

section
/-! The statements about the pipelines as sequences of steps, the round trip, and what the pipelines read. -/

set_option autoImplicit false

namespace Sys2Proof.Machine

/-- Settles O50: the state that the steps leave has every field of `ENCODE`'s but the grade. -/
theorem encodeEqualsItsSteps : Obligations.EncodeEqualsItsSteps := fun s g hwf =>
  ⟨_, runCommands_encode_steps g hwf, exec_encode_code s g⟩

/-- Settles O52: the state that the steps leave has every field of `DECODE`'s but the grade. -/
theorem decodeEqualsItsSteps : Obligations.DecodeEqualsItsSteps := fun _ _ hwf hholds =>
  ⟨_, runCommands_decode_steps hwf hholds, exec_decode_of_holdsPassword hholds, rfl, rfl, rfl⟩

/-- Settles O53: the decoded stream begins with the payload, and its fields are those of the projection. -/
theorem decodeOfEncodeIsReconstruct : Obligations.DecodeOfEncodeIsReconstruct := by
  intro s g hwf
  refine ⟨((s.encoded g).decoded g).ok (g.code.setWidth 32), ?_, ?_, rfl, rfl⟩
  · rw [runCommands_cons_of_ok (exec_encode_code s g), runCommands_singleton]
    exact exec_decode_of_holdsPassword (holdsPassword_encoded hwf g)
  · exact unpack_of_pack (segmentAt_decoded_encoded hwf g)

/-- Settles O54: a slot that the projection would strip of its quantity has none. -/
theorem reconstructAtGoldIsIdentity : Obligations.ReconstructAtGoldIsIdentity := by
  intro cfg ss hqty
  have hslot : ∀ (c : Fin 4) (k : Fin 15), reconstructItem cfg ss.item[c] k = ss.item[c][k] := fun c k => by
    by_cases hzero : ss.item[c][k].qty = 0
    · rw [reconstructItem, ← hzero, ite_id]
    · exact if_pos (hqty c k hzero)
  have hitem : (reconstruct cfg ss .gold).item = ss.item := Vector.ext fun c hc => Vector.ext fun k hk =>
    (getElem_reconstruct_gold_item cfg ss ⟨c, hc⟩ ⟨k, hk⟩).trans (hslot ⟨c, hc⟩ ⟨k, hk⟩)
  exact SaveState.ext_fields rfl rfl rfl rfl rfl hitem

/-- Settles O57: the downgrade is an encoding of the decoded state, and so is the sequence. -/
theorem convertDownwardsDecodesThenEncodes : Obligations.ConvertDownwardsDecodesThenEncodes := by
  intro s source target _ hholds hdown
  refine ⟨_, exec_convert_downwards hholds hdown, ?_, rfl⟩
  rw [runCommands_cons_of_ok (exec_decode_of_holdsPassword hholds), runCommands_singleton]
  exact exec_encode_code (s.decoded source) target

/-- Settles O59: each pipeline in two states that agree on what it reads. -/
theorem pipelinesIgnoreEarlierCommands : Obligations.PipelinesIgnoreEarlierCommands := by
  intro s s' hwf hwf' hcfg
  refine ⟨fun hss g => ?_, fun hpwlen hread => ⟨?_, answerAlike_convert hwf hwf' hcfg hpwlen hread⟩⟩
  · obtain rfl | ⟨gr, rfl⟩ := gradeCode_cases g
    · exact ⟨_, _, exec_encode_zero s, exec_encode_zero s', rfl, fun hne => absurd rfl hne⟩
    · exact ⟨_, _, exec_encode_code s gr, exec_encode_code s' gr, rfl, fun _ => sameEncoded_encoded hwf hwf' hcfg hss gr⟩
  · refine answerAlike_of_passwordGrade (same := SameDecoded) (passwordGrade_congr hpwlen hread) (.inr (.inl rfl))
      fun g hholds hholds' => ?_
    exact .of_ok (exec_decode_of_holdsPassword hholds) (exec_decode_of_holdsPassword hholds')
      (sameDecoded_decoded hcfg (groups_congr hpwlen hread) g)

end Sys2Proof.Machine
end
